-- ==== Sys2Proof/Word.lean ====
section
/-! DEFINITION. The Word and the other widths of the hardware (00_scope.md R4, R5; 10_state.md R11 to R13, R18).
The readings of a Word (address view, value view, bytes) and `wrap16` are in Machine/Operands.lean. -/

namespace Sys2Proof

/-- A Word: 16 bits, the unit of memory, of a cache line's contents and tag, and of every operand (R4, R5). -/
abbrev Word := BitVec 16

/-- The storage of PC, SP and IADDR: 17 bits, so that 65536 and 65537 can be held (R4 `PC_BITS`, `SP_BITS`; R11, R12, R23). -/
abbrev Ctrl := BitVec 17

/-- One byte of a Word, as PRINTS reads them (R44, R102). -/
abbrev Byte := BitVec 8

/-- The index of a cache line, 0..31 (R18, R32). -/
abbrev LineIndex := Fin 32

end Sys2Proof
end

