-- ==== Sys2Proof/Syntax.lean ====
section
/-! DEFINITION. The instructions: one constructor of `Instr` per row of the opcode table (30_encoding.md R62), and the
written form of an instruction, an `AsmInstr`: an instruction with its operand Word where it has one (R60, R61, R67).

`Instr` carries no operand, because the spec's decoder reads none: it is `decode : Word -> (one of 17 opcodes) or invalid`
(R65), and "The operand Word is fetched by the engine during execution, not by the decoder" (R66). The operand is read by
`fetchOperand` (or, for JEQ, only when the branch is taken), as a counted cache access in its place among the others. -/

namespace Sys2Proof

/-- The 17 instructions, in the order of the opcode table (R62). -/
inductive Instr where
  /-- HALT: read the result and stop (R76). -/
  | halt
  /-- NOP (R78). -/
  | nop
  /-- ADD (R82). -/
  | add
  /-- SUB (R83). -/
  | sub
  /-- MULT (R84). -/
  | mult
  /-- DIV (R85). -/
  | div
  /-- CALL addr (R92). -/
  | call
  /-- RETURN offset (R93). -/
  | ret
  /-- JMP addr (R90). -/
  | jmp
  /-- JEQ addr (R91). -/
  | jeq
  /-- PRINTI (R101). -/
  | printi
  /-- PRINTS addr (R102). -/
  | prints
  /-- PUSHC k (R110). -/
  | pushc
  /-- PUSHA addr (R111). -/
  | pusha
  /-- PUSHR offset (R112). -/
  | pushr
  /-- POPA addr (R113). -/
  | popa
  /-- POPR offset (R114). -/
  | popr
  deriving DecidableEq, Repr

/-- The two formats (R61): `z`, one Word, and `w`, an opcode Word followed by an operand Word. -/
inductive Format where
  | z
  | w
  deriving DecidableEq, Repr

/-- How an instruction reads its operand Word (R63). -/
inductive OperandView where
  /-- Format Z: there is no operand Word. -/
  | noOperand
  /-- `unsigned(operand)`, 0..65535. -/
  | address
  /-- `signed(operand)`, -32768..32767. -/
  | value
  /-- The 16 bits unchanged. -/
  | raw
  deriving DecidableEq, Repr

/-- An instruction as it stands in an image: the instruction and, for format `w`, its operand Word (R60, R67). -/
structure AsmInstr where
  op : Instr
  operand : Option Word
  deriving DecidableEq, Repr

end Sys2Proof
end

