-- ==== Sys2Proof/WellFormed.lean ====
section
/-! DEFINITION. Which written instructions exist (30_encoding.md R61, R64): an operand Word exactly where the format has
one. Every one of the 65,536 operand Words is legal for every format-`w` instruction (R64), so nothing else is checked. -/

namespace Sys2Proof

/-- The format of each instruction (R61, R62). -/
def Instr.format : Instr → Format
  | .halt | .nop | .add | .sub | .mult | .div | .printi => .z
  | .call | .ret | .jmp | .jeq | .prints | .pushc | .pusha | .pushr | .popa | .popr => .w

/-- A format-`z` instruction is written without an operand (R61). -/
def AsmInstr.noStrayOperand (a : AsmInstr) : Bool :=
  match a.op.format with
  | .z => a.operand.isNone
  | .w => true

/-- A format-`w` instruction is written with its operand Word (R61). -/
def AsmInstr.hasItsOperand (a : AsmInstr) : Bool :=
  match a.op.format with
  | .z => true
  | .w => a.operand.isSome

/-- A written instruction has an operand Word exactly when its format has one (R60, R61). -/
def AsmInstr.wf (a : AsmInstr) : Bool := a.noStrayOperand && a.hasItsOperand

end Sys2Proof
end

