-- ==== Sys2Proof/Decode.lean ====
section
/-! DEFINITION. Decoding and encoding (30_encoding.md R60 to R66, R68). The decoder is total: it compares the whole opcode
Word with the 17 numbers (R64) and answers the instruction or nothing; the engine raises `InvalidOpcode` for nothing. -/

namespace Sys2Proof

/-- The number of each instruction: its row in the opcode table, from 0 (R62; the spec's decision D1). -/
def Instr.number : Instr → Nat
  | .halt => 0
  | .nop => 1
  | .add => 2
  | .sub => 3
  | .mult => 4
  | .div => 5
  | .call => 6
  | .ret => 7
  | .jmp => 8
  | .jeq => 9
  | .printi => 10
  | .prints => 11
  | .pushc => 12
  | .pusha => 13
  | .pushr => 14
  | .popa => 15
  | .popr => 16

/-- The view each instruction takes of its operand Word (R63). -/
def Instr.operandView : Instr → OperandView
  | .halt | .nop | .add | .sub | .mult | .div | .printi => .noOperand
  | .call | .jmp | .jeq | .prints | .pusha | .popa => .address
  | .ret | .pushr | .popr => .value
  | .pushc => .raw

/-- The opcode Word: the number as an unsigned 16-bit number (R61). -/
def Instr.opcodeWord (i : Instr) : Word := BitVec.ofNat 16 i.number

/-- The length in Words, a function of the instruction alone (R60, R65). -/
def Instr.length (i : Instr) : Nat :=
  match i.format with
  | .z => 1
  | .w => 2

/-- R64, R65, R72: the whole opcode Word is compared with the 17 numbers; any other Word is no instruction. -/
def decode (w : Word) : Option Instr :=
  match w.toNat with
  | 0 => some .halt
  | 1 => some .nop
  | 2 => some .add
  | 3 => some .sub
  | 4 => some .mult
  | 5 => some .div
  | 6 => some .call
  | 7 => some .ret
  | 8 => some .jmp
  | 9 => some .jeq
  | 10 => some .printi
  | 11 => some .prints
  | 12 => some .pushc
  | 13 => some .pusha
  | 14 => some .pushr
  | 15 => some .popa
  | 16 => some .popr
  | _ => none

/-- The instruction that a list of Words begins with, its operand Word where the format has one, and the Words after it
(R60, R65). `none`: the first Word is no opcode, or the list ends inside the instruction. -/
def decodeInstr : List Word → Option (AsmInstr × List Word)
  | [] => none
  | w :: rest =>
    match decode w with
    | none => none
    | some i =>
      match i.format, rest with
      | .z, rest => some (⟨i, none⟩, rest)
      | .w, [] => none
      | .w, k :: rest' => some (⟨i, some k⟩, rest')

/-- A whole image read as instructions one after another from address 0 (R68); every Word must belong to one. -/
def decodeProgram : List Word → Option (List AsmInstr)
  | [] => some []
  | [w] =>
    match decode w with
    | none => none
    | some i =>
      match i.format with
      | .z => some [⟨i, none⟩]
      | .w => none
  | w :: k :: rest =>
    match decode w with
    | none => none
    | some i =>
      match i.format with
      | .z => (decodeProgram (k :: rest)).map (⟨i, none⟩ :: ·)
      | .w => (decodeProgram rest).map (⟨i, some k⟩ :: ·)

/-- The Words of a written instruction: the opcode Word at the lower address, then the operand Word (R60, R61). -/
def encode (a : AsmInstr) : List Word := a.op.opcodeWord :: a.operand.toList

/-- The image of a program: its instructions' Words in order from address 0 (R67, R68). -/
def encodeProgram (p : List AsmInstr) : List Word := p.flatMap encode

/-- A format-`z` instruction as written (R67). -/
def asm (i : Instr) : AsmInstr := ⟨i, none⟩

/-- A format-`w` instruction as written, its operand an integer: a negative `n` stands for `wrap16(n)` (R67). -/
def asmOp (i : Instr) (n : Int) : AsmInstr := ⟨i, some (BitVec.ofInt 16 n)⟩

/-- The instruction the decoder reads from an instruction given as one number, bit 0 the least significant bit of the
opcode Word and bits 31..16 the operand Word, every bit above `nbits` zero. -/
def decodeTableWord (nbits w : Nat) : Option Instr :=
  let v := w % 2 ^ nbits
  (decodeInstr [BitVec.ofNat 16 v, BitVec.ofNat 16 (v / 65536)]).map fun r => r.1.op

end Sys2Proof
end

