-- ==== Sys2Proof/Config.lean ====
section
/-! DEFINITION. The parameters of the hardware (00_scope.md R4) that State and its reset value use.
Every one has the value R4 gives it, but `lineResetContents`, which R4 leaves OPEN: it is a constant without a
visible value, so nothing proved about the model can lean on a particular Word. -/

namespace Sys2Proof.Config

/-- `MEM_WORDS`: main memory has 65,536 Words, addresses 0..65535 (R4, R30). -/
def memWords : Nat := 65536

/-- `TAG_SENTINEL`: the tag every line holds at reset, the highest address (R4, R18). -/
def tagSentinel : Word := 65535#16

/-- `PC_RESET` (R4, R11). -/
def pcReset : Ctrl := 0#17

/-- `SP_RESET`: one past the last address, the empty stack (R4, R12). -/
def spReset : Ctrl := 65536#17

/-- `FP_RESET` (R4, R13). -/
def fpReset : Word := 0#16

/-- `LINE_RESET_CONTENTS`: the contents every cache line holds at reset.
The spec gives no value and says a model treats it as any value (R4, R18; D12, U6): a free value.
DESIGN CHOICE (log 2): it is this opaque constant. -/
opaque lineResetContents : Word

end Sys2Proof.Config
end

