-- ==== Sys2Proof/Machine/State.lean ====
section
/-! DEFINITION. The machine's state (10_state.md R10 to R25), its reset value (R141), and the reasons a step has no next
state. State holds exactly the elements of R10: "A model's state type has exactly these fields". -/

namespace Sys2Proof.Machine

/-- One cache line (R18): the full 16-bit tag, one Word of contents, one dirty bit; there is no valid bit. -/
structure Line where
  tag : Word
  contents : Word
  dirty : Bool
  deriving DecidableEq, Repr

/-- Main memory as a list of (address, Word) pairs (R17): the addresses strictly rising and below 65536, no listed Word
equal to 0, which is what an unlisted address holds. `Memory.wf` in Machine/Memory.lean says this form.
The unit is the Word, because the hardware has no smaller one (R30, R44); log 3. -/
abbrev Memory := List (Nat × Word)

/-- Whether the engine takes steps (R20). -/
inductive RunState where
  | running
  | halted
  | faulted
  deriving DecidableEq, Repr

/-- The cause of a fault of the hardware (R22, R120). -/
inductive Cause where
  | addressRange
  | invalidOpcode
  | divideByZero
  deriving DecidableEq, Repr

/-- The record a fault leaves (R22): the cause, the offending integer, and the address of the instruction's opcode Word. -/
structure FaultRecord where
  cause : Cause
  info : Int
  iaddr : Ctrl
  deriving DecidableEq, Repr

/-- An event on the output port (R24, R100): `PrintInt(n)`, n in -32768..32767, or `PrintChar(c)`, c in 1..255. -/
inductive Event where
  | printInt (n : Int)
  | printChar (c : Nat)
  deriving DecidableEq, Repr

/-- The complete state of the CORE (R10), and nothing else. -/
structure State where
  /-- `PC`, 17 bits (R11). -/
  pc : Ctrl
  /-- `SP`, 17 bits; 65536 is the empty stack (R12). -/
  sp : Ctrl
  /-- `FP`, a Word in address view (R13). -/
  fp : Word
  /-- `MM[0..65535]` (R17). -/
  mem : Memory
  /-- `cache[0..31]` (R18). -/
  cache : Vector Line 32
  /-- `MEMREADS`, a natural number that never wraps (R19). -/
  memReads : Nat
  /-- `MEMWRITES` (R19). -/
  memWrites : Nat
  /-- `HITS` (R19). -/
  hits : Nat
  /-- `MISSES` (R19). -/
  misses : Nat
  /-- `RUN` (R20). -/
  run : RunState
  /-- `RESULT`, which has no value until HALT writes it (R21). -/
  result : Option Word
  /-- `FAULT`, which has no value until a fault writes it (R22). -/
  fault : Option FaultRecord
  /-- `IADDR`, the instruction-address latch: a copy of a value of PC (R23). -/
  iaddr : Ctrl
  /-- `OUT`, the output events in the order sent (R24). -/
  out : List Event
  deriving DecidableEq, Repr

/-- Why a step has no next state. A fault of the HARDWARE (R120) is none of these: the spec describes its entry, so the step
that raises it has a next state, in which `run` is `faulted` and `fault` holds the record (R124). -/
inductive Fault where
  /-- Raised by `step` when `run` is `halted`: the spec has no transition from such a state (R77, U17). Safe. -/
  | engineHalted
  /-- Raised by `step` when `run` is `faulted`: the spec has no transition from such a state (R77, R127, U17). Safe. -/
  | engineFaulted
  deriving DecidableEq, Repr

/-- Why an instruction has no meaning in the model. -/
inductive Refusal where
  /-- Raised by an arm of `exec` whose instruction has no meaning yet; no arm does. Safe. -/
  | notModelled (mnemonic : String)
  deriving DecidableEq, Repr

/-- A cache line at reset: the sentinel tag, not dirty, and the contents given (R18). -/
def Line.reset (contents : Word) : Line := ⟨Config.tagSentinel, contents, false⟩

/-- The machine right after reset with no image loaded (R140, R141): memory is all zero, `LINE_RESET_CONTENTS` is the free
value `Config.lineResetContents`. A reset with an image is `boot` in Machine/Boot.lean. -/
def State.reset : State where
  pc := Config.pcReset
  sp := Config.spReset
  fp := Config.fpReset
  mem := []
  cache := Vector.replicate 32 (Line.reset Config.lineResetContents)
  memReads := 0
  memWrites := 0
  hits := 0
  misses := 0
  run := .running
  result := none
  fault := none
  iaddr := 0#17
  out := []

end Sys2Proof.Machine
end

