-- ==== Sys2Proof/Machine/Operands.lean ====
section
/-! DEFINITION. The readings of a Word and the operand forms (00_scope.md R5, 30_encoding.md R63, 44_stack_memory.md R109):
address view, value view, raw, the packed bytes of PRINTS, and the frame-relative effective address. -/

namespace Sys2Proof.Machine

/-- `unsigned(w)`, the address view, 0..65535, as an integer (R5). -/
def unsigned (w : Word) : Int := (w.toNat : Int)

/-- `signed(w)`, the value view, -32768..32767: `unsigned(w)` when bit 15 is 0, else `unsigned(w) - 65536` (R5). -/
def signed (w : Word) : Int := if w.getLsbD 15 then unsigned w - 65536 else unsigned w

/-- `wrap16(i)`: the Word whose unsigned value is `i mod 65536`, for any integer `i` (R5). -/
def wrap16 (i : Int) : Word := BitVec.ofInt 16 i

/-- The low byte of a packed Word, the earlier character (R44, R102). -/
def lowByte (w : Word) : Byte := w.extractLsb' 0 8

/-- The high byte of a packed Word, the later character (R44, R102). -/
def highByte (w : Word) : Byte := w.extractLsb' 8 8

/-- The value of a 17-bit register as an unbounded integer, as every address is computed (R42). -/
def ctrlInt (c : Ctrl) : Int := (c.toNat : Int)

/-- A 17-bit register set to an integer in its range (R11, R12). -/
def toCtrl (i : Int) : Ctrl := BitVec.ofInt 17 i

/-- A 17-bit register set to a Word in address view (R89: `PC <- unsigned(t)`). -/
def wordToCtrl (w : Word) : Ctrl := w.setWidth 17

/-- The frame-relative effective address `FP + signed(operand)`, an unbounded integer, never wrapped (R63, R109). -/
def frameAddr (fp operand : Word) : Int := unsigned fp + signed operand

/-- `line(a) = a mod 32`, the low five bits of the address (R32). -/
def lineIndex (a : Word) : LineIndex := ⟨a.toNat % 32, Nat.mod_lt _ (by decide)⟩

end Sys2Proof.Machine
end

