-- ==== Sys2Proof/Machine/Flags.lean ====
section
/-! DEFINITION. The hardware has no flags, no condition codes and no predicates (10_state.md R15): no instruction records
carry, overflow, sign or zero. What stands here is what takes their place: the tests an instruction makes on a value in its
hand, and the ALU's results, whose overflow is nowhere recorded (41_arithmetic.md R81 to R87). -/

namespace Sys2Proof.Machine

/-- JEQ's test: all 16 bits of the popped Word are 0 (R91). -/
def isZeroWord (w : Word) : Bool := unsigned w == 0

/-- DIV's test of its divisor in value view (R85). -/
def isZeroDivisor (a : Word) : Bool := signed a == 0

/-- PRINTS's test for the terminator (R102). -/
def isTerminator (b : Byte) : Bool := b.toNat == 0

/-- ADD's integer operation on the value views, `b` the Word pushed first (R82). -/
def aluAdd (b a : Int) : Int := a + b

/-- SUB's: the Word pushed first minus the Word pushed last (R83). -/
def aluSub (b a : Int) : Int := b - a

/-- MULT's (R84). -/
def aluMult (b a : Int) : Int := a * b

/-- DIV's: the exact quotient rounded toward zero (R85, R87; the spec's decision D15). -/
def aluDiv (b a : Int) : Int := Int.tdiv b a

end Sys2Proof.Machine
end

