-- ==== Sys2Proof/Machine/Memory.lean ====
section
/-! DEFINITION. Main memory as an array of Words (10_state.md R17, 20_memory.md R30, R40) over its canonical list. -/

namespace Sys2Proof.Machine

/-- The canonical form: addresses strictly rising, each below 65536, no listed Word equal to 0. -/
abbrev Memory.wf (m : Memory) : Prop :=
  m.Pairwise (fun x y => x.1 < y.1) ∧ ∀ c ∈ m, c.1 < 65536 ∧ c.2 ≠ 0#16

/-- What an address that is not listed holds: memory is zeroed before the image is loaded (R17, R140, R142). -/
def Memory.unlisted : Word := 0#16

/-- `MM[a]` (R17). The list is sorted, so an address beyond `a` ends the search. -/
def Memory.read : Memory → Nat → Word
  | [], _ => Memory.unlisted
  | (k, w) :: m, a => if a < k then Memory.unlisted else if a = k then w else Memory.read m a

/-- `MM[a] <- v` (R40), keeping the canonical form: writing 0 removes the entry. What follows a removed entry begins beyond
`a` in a canonical list; dropping what does not makes the laws of read and write hold of every list. -/
def Memory.write : Memory → Nat → Word → Memory
  | [], a, v => if v = Memory.unlisted then [] else [(a, v)]
  | (k, w) :: m, a, v =>
    if a < k then
      if v = Memory.unlisted then (k, w) :: m else (a, v) :: (k, w) :: m
    else if a = k then
      if v = Memory.unlisted then m.dropWhile (fun c => decide (c.1 ≤ a)) else (a, v) :: m
    else (k, w) :: Memory.write m a v

/-- The image from address `a` upward, over memory that is zero there (R142): its nonzero Words at their addresses. -/
def Memory.ofImage : Nat → List Word → Memory
  | _, [] => []
  | a, w :: ws => if w = Memory.unlisted then Memory.ofImage (a + 1) ws else (a, w) :: Memory.ofImage (a + 1) ws

end Sys2Proof.Machine
end

