-- ==== Sys2Proof/Machine/Ops.lean ====
section
/-! DEFINITION. The named operations the instructions are written over: the main-memory port (20_memory.md R40), the cache
controller (R34 to R37), the fault entry (60_exceptions.md R124), the checked accesses (R43), the opcode fetch (R71), the
operand fetch and the stack (40_cycle_halt_nop.md R73 to R75), and the output port (43_output.md R100). -/

namespace Sys2Proof.Machine

/-! ### Setters: one per element an operation writes -/

/-- `PC <- v`. -/
def State.setPc (s : State) (v : Ctrl) : State := { s with pc := v }

/-- `SP <- v`. -/
def State.setSp (s : State) (v : Ctrl) : State := { s with sp := v }

/-- `FP <- v`. -/
def State.setFp (s : State) (v : Word) : State := { s with fp := v }

/-- `IADDR <- v` (R23). -/
def State.setIaddr (s : State) (v : Ctrl) : State := { s with iaddr := v }

/-- `cache[i] <- l` (R18). -/
def State.setLine (s : State) (i : LineIndex) (l : Line) : State := { s with cache := s.cache.set i.val l i.isLt }

/-- `cache[i]`. -/
def State.line (s : State) (i : LineIndex) : Line := s.cache[i.val]'i.isLt

/-- `HITS <- HITS + 1`. -/
def State.countHit (s : State) : State := { s with hits := s.hits + 1 }

/-- `MISSES <- MISSES + 1; MEMREADS <- MEMREADS + 1`: only ever incremented together (R35, R38). -/
def State.countMiss (s : State) : State := { s with misses := s.misses + 1, memReads := s.memReads + 1 }

/-- `MEMWRITES <- MEMWRITES + 1`. -/
def State.countWriteBack (s : State) : State := { s with memWrites := s.memWrites + 1 }

/-- `Emit(e)`: append an event to `OUT` (R100). -/
def emit (e : Event) (s : State) : State := { s with out := s.out ++ [e] }

/-! ### The main-memory port (R40), used by the cache controller only -/

/-- `MemRead(a, 1)`: returns `MM[a]` and changes nothing. -/
def memRead (a : Word) (s : State) : Word := s.mem.read a.toNat

/-- `MemWrite(a, 1, v)`: `MM[a] <- v` and nothing else. -/
def memWrite (a v : Word) (s : State) : State := { s with mem := s.mem.write a.toNat v }

/-! ### The cache controller (R32 to R37): total on every state, address and value (R41) -/

/-- Evicting a line: a dirty one is written to main memory at its tag, and counted; a clean one is dropped (R35, R37). -/
def writeBack (l : Line) (s : State) : State :=
  if l.dirty then (memWrite l.tag l.contents s).countWriteBack else s

/-- `CacheRead(a)` (R34 hit, R35 miss): the Word and the state after. The tag compare is on all 16 bits (R33). -/
def cacheRead (a : Word) (s : State) : Word × State :=
  let i := lineIndex a
  let l := s.line i
  if l.tag = a then (l.contents, s.countHit)
  else
    let s := writeBack l s.countMiss
    let v := memRead a s
    (v, s.setLine i ⟨a, v, false⟩)

/-- `CacheWrite(a, v)` (R36 tag matches, R37 tag differs): neither hits nor misses are counted, and nothing is filled. -/
def cacheWrite (a v : Word) (s : State) : State :=
  let i := lineIndex a
  let l := s.line i
  if l.tag = a then s.setLine i ⟨a, v, true⟩
  else (writeBack l s).setLine i ⟨a, v, true⟩

/-! ### Faults (R120 to R126) -/

/-- The cause codes (R120). They are labels: nothing computes with them (D4). -/
def Cause.code : Cause → Nat
  | .addressRange => 1
  | .invalidOpcode => 2
  | .divideByZero => 3

/-- `raise F(info)`, the fault entry (R124): the record is written, `RUN` becomes `Faulted`, nothing else changes. There is
no handler to go to and no return from a fault (R127). -/
def raise (c : Cause) (info : Int) (s : State) : State :=
  { s with fault := some ⟨c, info, s.iaddr⟩, run := .faulted }

/-- What a run of micro-steps comes to: it completes with a value, or it has raised a fault. Every micro-step before the
raising one has taken effect and no later one has (R125), so `raised` carries the state after the fault entry. -/
inductive Micro (α : Type) where
  | done (v : α) (s : State)
  | raised (s : State)
  deriving DecidableEq, Repr

/-- The next micro-steps, which a fault cuts off (R6, R125). -/
def Micro.andThen {α β : Type} (m : Micro α) (k : α → State → Micro β) : Micro β :=
  match m with
  | .done v s => k v s
  | .raised s => .raised s

/-- The end of an instruction: a completed one and one that raised a fault both have a next state (R70, R124). -/
def Micro.outcome {α : Type} (m : Micro α) : Host.Outcome State Fault Refusal :=
  match m with
  | .done _ s => .next s
  | .raised s => .next s

/-- A raised fault as the end of a run of micro-steps. -/
def fail {α : Type} (c : Cause) (info : Int) (s : State) : Micro α := .raised (raise c info s)

/-! ### The checked accesses (R42, R43) -/

/-- `CheckAddr(i)`. -/
def checkAddr (i : Int) (s : State) : Micro Unit :=
  if i < 0 ∨ 65535 < i then fail .addressRange i s else .done () s

/-- `Load(i)`: the check, then one `CacheRead`. -/
def load (i : Int) (s : State) : Micro Word :=
  (checkAddr i s).andThen fun _ s =>
    let r := cacheRead (wrap16 i) s
    .done r.1 r.2

/-- `Store(i, v)`: the check, then one `CacheWrite`. -/
def store (i : Int) (v : Word) (s : State) : Micro Unit :=
  (checkAddr i s).andThen fun _ s => .done () (cacheWrite (wrap16 i) v s)

/-! ### The instruction cycle's primitives (R71, R73 to R75) -/

/-- The opcode fetch (R71): `IADDR` latches `PC`, the opcode Word is loaded, `PC` advances before dispatch. -/
def fetchOpcode (s : State) : Micro Word :=
  (load (ctrlInt s.pc) (s.setIaddr s.pc)).andThen fun w s => .done w (s.setPc (s.pc + 1#17))

/-- `FetchOperand()` (R73). -/
def fetchOperand (s : State) : Micro Word :=
  (load (ctrlInt s.pc) s).andThen fun w s => .done w (s.setPc (s.pc + 1#17))

/-- `Push(v)` (R74): the decremented value is checked before it is committed, so `SP` never holds -1. -/
def push (v : Word) (s : State) : Micro Unit :=
  let a := ctrlInt s.sp - 1
  (checkAddr a s).andThen fun _ s => .done () (cacheWrite (wrap16 a) v (s.setSp (toCtrl a)))

/-- `Pop()` (R75). -/
def pop (s : State) : Micro Word :=
  (load (ctrlInt s.sp) s).andThen fun v s => .done v (s.setSp (s.sp + 1#17))

/-- `BinOp(f)` (R81): the top Word is `a`, the next is `b`; the result of `f(signed(b), signed(a))` is pushed. -/
def binOp (f : Int → Int → Int) (s : State) : Micro Unit :=
  (pop s).andThen fun a s => (pop s).andThen fun b s => push (wrap16 (f (signed b) (signed a))) s

end Sys2Proof.Machine
end

