-- ==== Sys2Proof/Machine/Arithmetic.lean ====
section
/-! DEFINITION. ADD, SUB, MULT, DIV (41_arithmetic.md R81 to R88). -/

namespace Sys2Proof.Machine

/-- ADD (R82). -/
def execAdd (s : State) : Host.Outcome State Fault Refusal := (binOp aluAdd s).outcome

/-- SUB (R83). -/
def execSub (s : State) : Host.Outcome State Fault Refusal := (binOp aluSub s).outcome

/-- MULT (R84). -/
def execMult (s : State) : Host.Outcome State Fault Refusal := (binOp aluMult s).outcome

/-- DIV (R85): the zero test comes after both pops and before the push. -/
def execDiv (s : State) : Host.Outcome State Fault Refusal :=
  ((pop s).andThen fun a s => (pop s).andThen fun b s =>
    if isZeroDivisor a then fail .divideByZero 0 s
    else push (wrap16 (aluDiv (signed b) (signed a))) s).outcome

end Sys2Proof.Machine
end

