-- ==== Sys2Proof/Machine/Control.lean ====
section
/-! DEFINITION. JMP, JEQ, CALL, RETURN (42_control_transfer.md R89 to R96). -/

namespace Sys2Proof.Machine

/-- JMP addr (R90): the operand is read with `Load(PC)` and assigned to `PC`. -/
def execJmp (s : State) : Host.Outcome State Fault Refusal :=
  ((load (ctrlInt s.pc) s).andThen fun t s => Micro.done () (s.setPc (wordToCtrl t))).outcome

/-- JEQ addr (R91): the pop comes first; the operand is read only when the branch is taken, else `PC` steps over it. -/
def execJeq (s : State) : Host.Outcome State Fault Refusal :=
  ((pop s).andThen fun v s =>
    if isZeroWord v then (load (ctrlInt s.pc) s).andThen fun t s => Micro.done () (s.setPc (wordToCtrl t))
    else Micro.done () (s.setPc (s.pc + 1#17))).outcome

/-- CALL addr (R92): the return address must be a Word before anything is pushed; then the return address and the caller's
`FP` are pushed, `PC <- addr`, `FP <- SP`. -/
def execCall (s : State) : Host.Outcome State Fault Refusal :=
  ((fetchOperand s).andThen fun t s =>
    (checkAddr (ctrlInt s.pc) s).andThen fun _ s =>
      (push (wrap16 (ctrlInt s.pc)) s).andThen fun _ s =>
        (push s.fp s).andThen fun _ s =>
          Micro.done () ((s.setPc (wordToCtrl t)).setFp (wrap16 (ctrlInt s.sp)))).outcome

/-- RETURN offset (R93; conflict C4): the return value and both frame Words are read before the store, and the registers
are assigned last. -/
def execReturn (s : State) : Host.Outcome State Fault Refusal :=
  ((fetchOperand s).andThen fun off s =>
    (load (ctrlInt s.sp) s).andThen fun v s =>
      (load (unsigned s.fp + 1) s).andThen fun rpc s =>
        (load (unsigned s.fp) s).andThen fun rfp s =>
          (store (frameAddr s.fp off) v s).andThen fun _ s =>
            Micro.done () (((s.setPc (wordToCtrl rpc)).setSp (toCtrl (frameAddr s.fp off))).setFp rfp)).outcome

end Sys2Proof.Machine
end

