-- ==== Sys2Proof/Machine/Cycle.lean ====
section
/-! DEFINITION. HALT and NOP (40_cycle_halt_nop.md R76, R78). Each meaning runs after the opcode fetch: `PC` already points
at the Word after the opcode (R71). -/

namespace Sys2Proof.Machine

/-- HALT (R76): the result read, one counted `Load(SP)`; then `RESULT` and `RUN`. The result is read, not popped. -/
def execHalt (s : State) : Host.Outcome State Fault Refusal :=
  ((load (ctrlInt s.sp) s).andThen fun r s =>
    Micro.done () { s with result := some r, run := .halted }).outcome

/-- NOP (R78): no effect beyond the fetch. -/
def execNop (s : State) : Host.Outcome State Fault Refusal := .next s

end Sys2Proof.Machine
end

