-- ==== Sys2Proof/Machine/Moves.lean ====
section
/-! DEFINITION. PUSHC, PUSHA, PUSHR, POPA, POPR (44_stack_memory.md R109 to R115). -/

namespace Sys2Proof.Machine

/-- PUSHC k (R110): immediate; the operand Word is pushed unchanged. -/
def execPushc (s : State) : Host.Outcome State Fault Refusal :=
  ((fetchOperand s).andThen fun k s => push k s).outcome

/-- PUSHA addr (R111): absolute; the read comes before the push. -/
def execPusha (s : State) : Host.Outcome State Fault Refusal :=
  ((fetchOperand s).andThen fun t s => (load (unsigned t) s).andThen fun v s => push v s).outcome

/-- PUSHR offset (R112): frame-relative. -/
def execPushr (s : State) : Host.Outcome State Fault Refusal :=
  ((fetchOperand s).andThen fun off s => (load (frameAddr s.fp off) s).andThen fun v s => push v s).outcome

/-- POPA addr (R113): the operand, then the pop, then the store. -/
def execPopa (s : State) : Host.Outcome State Fault Refusal :=
  ((fetchOperand s).andThen fun t s => (pop s).andThen fun v s => store (unsigned t) v s).outcome

/-- POPR offset (R114): the store is checked after the pop, so a fault there has lost the Word. -/
def execPopr (s : State) : Host.Outcome State Fault Refusal :=
  ((fetchOperand s).andThen fun off s => (pop s).andThen fun v s => store (frameAddr s.fp off) v s).outcome

end Sys2Proof.Machine
end

