-- ==== Sys2Proof/Machine/Output.lean ====
section
/-! DEFINITION. PRINTI and PRINTS (43_output.md R101, R102), and how the host renders the events (R103). -/

namespace Sys2Proof.Machine

/-- PRINTI (R101): one read of the top Word, one event, then `SP` moves; the Word is not read a second time. -/
def execPrinti (s : State) : Host.Outcome State Fault Refusal :=
  ((load (ctrlInt s.sp) s).andThen fun v s =>
    let s := emit (.printInt (signed v)) s
    Micro.done () (s.setSp (s.sp + 1#17))).outcome

/-- The loop of PRINTS (R102) at address `p = 65536 - left`, where `left` counts the Words before the end of memory.
With none left, `p` is 65536 and `Load(p)` raises `AddressRange(65536)`. -/
def printString : Nat → State → Micro Unit
  | 0, s => (load 65536 s).andThen fun _ s => .done () s
  | left + 1, s =>
    (load (65536 - ((left : Int) + 1)) s).andThen fun w s =>
      if isTerminator (lowByte w) then .done () s
      else
        let s := emit (.printChar (lowByte w).toNat) s
        if isTerminator (highByte w) then .done () s
        else printString left (emit (.printChar (highByte w).toNat) s)

/-- PRINTS addr (R102): `p` starts at the operand in address view. -/
def execPrints (s : State) : Host.Outcome State Fault Refusal :=
  ((fetchOperand s).andThen fun t s => printString (65536 - t.toNat) s).outcome

/-- The bytes an event stands for on the host's standard output (R103): the decimal digits of `|n|` without leading zeros
after a `-` when `n < 0`, or the one byte `c`. PRESUMED (log 15): the sign and the digits as "signed decimal" is ordinarily
written (G3). PRESUMED (log 18): their codes are ASCII's, 45 for `-` and 48 to 57 for the digits; the spec gives no character
encoding (91_not_in_source.md N21). Outside the CORE: nothing in `step` uses it. -/
def renderEvent : Event → List Nat
  | .printInt n => (if n < 0 then [45] else []) ++ (Nat.toDigits 10 n.natAbs).map Char.toNat
  | .printChar c => [c]

/-- The rendering of an output log, the events in program order, nothing between them (R103). -/
def renderOut (out : List Event) : List Nat := out.flatMap renderEvent

end Sys2Proof.Machine
end

