-- ==== Sys2Proof/Machine/Dispatch.lean ====
section
/-! DEFINITION. The dispatch (40_cycle_halt_nop.md R72): each instruction's meaning, run after its opcode fetch. -/

namespace Sys2Proof.Machine

def exec (i : Instr) (s : State) : Host.Outcome State Fault Refusal :=
  match i with
  | .halt => Sys2Proof.Machine.execHalt s
  | .nop => Sys2Proof.Machine.execNop s
  | .add => Sys2Proof.Machine.execAdd s
  | .sub => Sys2Proof.Machine.execSub s
  | .mult => Sys2Proof.Machine.execMult s
  | .div => Sys2Proof.Machine.execDiv s
  | .call => Sys2Proof.Machine.execCall s
  | .ret => Sys2Proof.Machine.execReturn s
  | .jmp => Sys2Proof.Machine.execJmp s
  | .jeq => Sys2Proof.Machine.execJeq s
  | .printi => Sys2Proof.Machine.execPrinti s
  | .prints => Sys2Proof.Machine.execPrints s
  | .pushc => Sys2Proof.Machine.execPushc s
  | .pusha => Sys2Proof.Machine.execPusha s
  | .pushr => Sys2Proof.Machine.execPushr s
  | .popa => Sys2Proof.Machine.execPopa s
  | .popr => Sys2Proof.Machine.execPopr s

end Sys2Proof.Machine
end

