-- ==== Sys2Proof/Machine/Engine.lean ====
section
/-! DEFINITION. One pass of the instruction cycle (40_cycle_halt_nop.md R70 to R72), taken while `RUN = Running`, and the
placing of Words in the memory the engine fetches from. -/

namespace Sys2Proof.Machine

/-- Dispatch (R72): the instruction the opcode Word stands for is executed; any other Word raises `InvalidOpcode`, the fetch
having taken effect. -/
def dispatchWord (w : Word) (s : State) : Host.Outcome State Fault Refusal :=
  match decode w with
  | some i => exec i s
  | none => .next (raise .invalidOpcode (unsigned w) s)

/-- The step of a running engine (R70): fetch, advance, dispatch, execute. -/
def runStep (s : State) : Host.Outcome State Fault Refusal :=
  match fetchOpcode s with
  | .done w s => dispatchWord w s
  | .raised s => .next s

/-- Put a Word where a read of address `a` finds it: in main memory, and in the cache line that holds `a` if one does. An
integer beyond the last address has no cell, and nothing is placed. -/
def placeWord (a : Nat) (v : Word) (s : State) : State :=
  if a ≤ 65535 then
    let s := memWrite (BitVec.ofNat 16 a) v s
    let i := lineIndex (BitVec.ofNat 16 a)
    let l := s.line i
    if l.tag = BitVec.ofNat 16 a then s.setLine i ⟨l.tag, v, l.dirty⟩ else s
  else s

end Sys2Proof.Machine
end

