-- ==== Sys2Proof/Machine/Step.lean ====
section
/-! DEFINITION. The step of the machine (40_cycle_halt_nop.md R70, R77). -/

namespace Sys2Proof.Machine

/-- One step: one whole instruction while `RUN = Running` (R70). Once `RUN` is `Halted` or `Faulted` there is no transition
(R77): the machine is stuck, under a name of its own. -/
def step (s : State) : Host.Outcome State Fault Refusal :=
  match s.run with
  | .running => runStep s
  | .halted => .fault .engineHalted
  | .faulted => .fault .engineFaulted

/-- `s` with an instruction placed where the next step fetches: its opcode Word (bits 15..0 of `w`) at `PC` and its operand
Word (bits 31..16) at `PC + 1`, every bit above `nbits` zero. Nothing else changes. From `State.reset` this stands for the
load of an image that begins with the two Words (log 4). -/
def State.withFetchWord (s : State) (nbits w : Nat) : State :=
  let v := w % 2 ^ nbits
  placeWord (s.pc.toNat + 1) (BitVec.ofNat 16 (v / 65536)) (placeWord s.pc.toNat (BitVec.ofNat 16 v) s)

end Sys2Proof.Machine
end

