-- ==== Sys2Proof/Machine/Boot.lean ====
section
/-! DEFINITION. Reset with an image, the host's side of the CORE before and after a run (70_reset_and_hazards.md R140 to
R145). Nothing in `step` uses this file. -/

namespace Sys2Proof.Machine

/-- The state after a reset in which the host has loaded `img` from address 0 (R140 to R142): a function of the image and
`LINE_RESET_CONTENTS` only, whatever state came before. -/
def boot (img : List Word) (lineContents : Word) : State :=
  { State.reset with
    mem := Memory.ofImage 0 img
    cache := Vector.replicate 32 (Line.reset lineContents) }

/-- The host's load: an image longer than 65,536 Words is refused (R142, U12). -/
def loadImage (img : List Word) (lineContents : Word) : Option State :=
  if img.length ≤ Config.memWords then some (boot img lineContents) else none

/-- A byte-level image, little-endian: file byte `2i` is bits 7..0 of Word `i`, byte `2i + 1` its bits 15..8 (R142; D20).
A last byte without a partner is no Word: such a file is refused (DESIGN CHOICE, log 6). -/
def imageOfBytes : List Byte → Option (List Word)
  | [] => some []
  | [_] => none
  | lo :: hi :: bs => (imageOfBytes bs).map ((hi ++ lo) :: ·)

/-- The four counters as the host reads them on `IF-STAT` (R26, R145): main-memory reads, main-memory writes, hits, misses. -/
structure Counters where
  memReads : Nat
  memWrites : Nat
  hits : Nat
  misses : Nat
  deriving DecidableEq, Repr

/-- The counters of a state. -/
def State.counters (s : State) : Counters := ⟨s.memReads, s.memWrites, s.hits, s.misses⟩

/-- How a run has ended (R144): normally, with `signed(RESULT)`, or at a fault, with its record and no result; with the
output and the counters so far in either case. -/
inductive RunEnd where
  | normal (exitValue : Int) (out : List Event) (counters : Counters)
  | fault (record : FaultRecord) (out : List Event) (counters : Counters)
  deriving DecidableEq, Repr

end Sys2Proof.Machine
end

