-- ==== Sys2Proof/Machine/View.lean ====
section
/-! DEFINITION. What a program and a proof can rely on (20_memory.md R54 to R58): the view of an address, the line
invariant, and a list of cache transactions applied one after another. -/

namespace Sys2Proof.Machine

/-- An address is resident when its line's tag is the address (00_scope.md R9, R58). -/
abbrev resident (s : State) (a : Word) : Prop := (s.line (lineIndex a)).tag = a

/-- `View(a)`: the contents of the line that holds `a` if one does, else `MM[a]` (R54). -/
def view (s : State) (a : Word) : Word :=
  if (s.line (lineIndex a)).tag = a then (s.line (lineIndex a)).contents else memRead a s

/-- The line invariant `INV` of one line (R54). -/
abbrev lineInv (s : State) (i : LineIndex) : Prop :=
  (lineIndex (s.line i).tag = i ∧ ((s.line i).dirty = true ∨ (s.line i).contents = memRead (s.line i).tag s)) ∨
    (lineIndex (s.line i).tag ≠ i ∧ (s.line i).tag = Config.tagSentinel ∧ (s.line i).dirty = false)

/-- `INV`: the line invariant of every line (R54). -/
abbrev CacheInv (s : State) : Prop := ∀ i : LineIndex, lineInv s i

/-- Line 31 in its reset state: the sentinel tag, not dirty, whatever its contents (R53). -/
abbrev sentinelLine (s : State) : Prop := (s.line 31).tag = Config.tagSentinel ∧ (s.line 31).dirty = false

/-- `INV` for every line but, where the boot condition failed, line 31 in its reset state (R54 (3), (4)). This holds in
every reachable state, whatever `LINE_RESET_CONTENTS` is. -/
abbrev CacheInvButSentinel (s : State) : Prop :=
  ∀ i : LineIndex, lineInv s i ∨ (i = 31 ∧ sentinelLine s)

/-- Where dirty lines may lie: a dirty line holds an address of its own line (R56). -/
abbrev DirtyPlaced (s : State) : Prop := ∀ i : LineIndex, (s.line i).dirty = true → lineIndex (s.line i).tag = i

/-- The address in `PC`, when it is one (`PC <= 65535`). -/
def State.pcWord (s : State) : Word := s.pc.setWidth 16

/-- The address in `SP`, when it is one (`SP <= 65535`); the push of an empty stack writes at `spWord - 1`, 65535. -/
def State.spWord (s : State) : Word := s.sp.setWidth 16

/-- A cache transaction, as the tables of 40_cycle_halt_nop.md R80 list them. -/
inductive Access where
  | read (a : Word)
  | write (a v : Word)
  deriving DecidableEq, Repr

/-- The address of a transaction. -/
def Access.addr : Access → Word
  | .read a => a
  | .write a _ => a

/-- The state after one transaction. -/
def Access.run (x : Access) (s : State) : State :=
  match x with
  | .read a => (cacheRead a s).2
  | .write a v => cacheWrite a v s

/-- The state after transactions made one after another (R49). -/
def transact (xs : List Access) (s : State) : State := xs.foldl (fun s x => x.run s) s

/-- What a transaction does to a flat memory, the system without a cache (R54). -/
def Access.flat (x : Access) (m : Word → Word) : Word → Word :=
  match x with
  | .read _ => m
  | .write a v => fun b => if b = a then v else m b

/-- A flat memory after transactions made one after another. -/
def flatAfter (xs : List Access) (m : Word → Word) : Word → Word := xs.foldl (fun m x => x.flat m) m

/-- The addresses an instruction stores to when it completes, from the state after its opcode fetch (R80): the cell under the
result, the pushed cells, or the effective address of its operand. -/
def storedAddrs (i : Instr) (s : State) : List Word :=
  match i with
  | .add | .sub | .mult | .div => [s.spWord + 1#16]
  | .call => [s.spWord - 1#16, s.spWord - 2#16]
  | .pushc | .pusha | .pushr => [s.spWord - 1#16]
  | .popa => [view s s.pcWord]
  | .ret | .popr => [wrap16 (frameAddr s.fp (view s s.pcWord))]
  | .halt | .nop | .jmp | .jeq | .printi | .prints => []

/-- The reads of `n` consecutive Words from address `p` upward, as PRINTS makes them (R80). -/
def readsFrom (p : Word) (n : Nat) : List Access := (List.range n).map fun j => .read (p + BitVec.ofNat 16 j)

end Sys2Proof.Machine
end

