-- ==== Sys2Proof/Safety.lean ====
section
/-! DEFINITION. What a run is, how it ends, and the properties of states that claims are stated in
(10_state.md R20 to R27, 20_memory.md R54, R56, 70_reset_and_hazards.md R144). -/

namespace Sys2Proof.Machine

/-- The end of a run, if it has ended (R144). -/
def runEnd (s : State) : Option RunEnd :=
  match s.run, s.result, s.fault with
  | .halted, some r, _ => some (.normal (signed r) s.out s.counters)
  | .faulted, _, some f => some (.fault f s.out s.counters)
  | _, _, _ => none

/-- A safe state of a run: no fault has been raised. -/
def Safe (s : State) : Prop := s.run ≠ .faulted

/-- A state some run from a reset with an image passes through. -/
inductive Reachable (img : List Word) (lineContents : Word) : State → Prop where
  | boot : Reachable img lineContents (boot img lineContents)
  | step {s t : State} : Reachable img lineContents s → step s = .next t → Reachable img lineContents t

/-- The ranges of the registers between steps (R27). -/
abbrev RegistersInRange (s : State) : Prop :=
  s.pc.toNat ≤ 65537 ∧ s.sp.toNat ≤ 65536 ∧ s.iaddr.toNat ≤ 65537 ∧
    (s.run = .running → s.pc.toNat ≤ 65536 ∨ s.iaddr.toNat = 65535)

/-- `RESULT` has a value exactly when `RUN = Halted`, `FAULT` exactly when `RUN = Faulted` (R10, R21, R22). -/
abbrev EndConsistent (s : State) : Prop :=
  (s.result.isSome = true ↔ s.run = .halted) ∧ (s.fault.isSome = true ↔ s.run = .faulted)

/-- The events the port can have carried (R24, R100). -/
def Event.inRange : Event → Bool
  | .printInt n => decide (-32768 ≤ n) && decide (n ≤ 32767)
  | .printChar c => decide (1 ≤ c) && decide (c ≤ 255)

/-- Every event of the log is one the port can carry (R24). -/
abbrev OutInRange (s : State) : Prop := ∀ e ∈ s.out, e.inRange = true

/-- The fault records of R120: an offending address outside 0..65535, an offending Word 17..65535, or 0. -/
def FaultRecord.inRange (f : FaultRecord) : Bool :=
  match f.cause with
  | .addressRange => (decide (-32768 ≤ f.info) && decide (f.info < 0)) || (decide (65535 < f.info) && decide (f.info ≤ 98302))
  | .invalidOpcode => decide (17 ≤ f.info) && decide (f.info ≤ 65535)
  | .divideByZero => decide (f.info = 0)

/-- A recorded fault is one of R120. -/
abbrev FaultInRange (s : State) : Prop := ∀ f, s.fault = some f → f.inRange = true

/-- Everything a program's values depend on, with the cache hidden: the registers, the run state and its records, the
output, and the view of every address (R54). The lines, main memory and the counters are left out. -/
def SameToProgram (s t : State) : Prop :=
  s.pc = t.pc ∧ s.sp = t.sp ∧ s.fp = t.fp ∧ s.run = t.run ∧ s.result = t.result ∧ s.fault = t.fault ∧
    s.iaddr = t.iaddr ∧ s.out = t.out ∧ ∀ a : Word, view s a = view t a

end Sys2Proof.Machine
end

