-- ==== Sys2Proof/Certificates/Slice0/Obligations.lean ====
section
/-! DEFINITION. The statements about the model, for the provers. Each says in its docstring which rule of spec/ it
formalises. A rule the spec marks as its own decision (D<n>) or inference is named as such.

In a statement about `exec i s`, `s` is the state after the opcode fetch: `PC` already points at the Word after the opcode
(R71), and for a format-`w` instruction that is its operand. A next state is written as the state after the instruction's
cache transactions, in the order of R80, with the registers it assigns: everything else is unchanged, because nothing else
is written. `view s a` is the Word a read of `a` returns (R54 (1)). -/

open Sys2Proof Sys2Proof.Machine

/-! ### Encoding -/

/-- R62's table (its numbers are the spec's decision D1) with the formats of R61 and the operand views of R63: the Words
0 to 16 decode to the 17 instructions in the table's order, one Word long or two. -/
def Obligations.OpcodeTableDecodes : Prop :=
  ([0#16, 1#16, 2#16, 3#16, 4#16, 5#16, 6#16, 7#16, 8#16, 9#16, 10#16, 11#16, 12#16, 13#16, 14#16, 15#16, 16#16].map
      decode =
    [some .halt, some .nop, some .add, some .sub, some .mult, some .div, some .call, some .ret, some .jmp, some .jeq,
      some .printi, some .prints, some .pushc, some .pusha, some .pushr, some .popa, some .popr]) ∧
  (∀ i ∈ [Instr.halt, .nop, .add, .sub, .mult, .div, .printi],
    i.format = .z ∧ i.length = 1 ∧ i.operandView = .noOperand) ∧
  (∀ i ∈ [Instr.call, .jmp, .jeq, .prints, .pusha, .popa], i.format = .w ∧ i.length = 2 ∧ i.operandView = .address) ∧
  (∀ i ∈ [Instr.ret, .pushr, .popr], i.format = .w ∧ i.length = 2 ∧ i.operandView = .value) ∧
  (Instr.format .pushc = .w ∧ Instr.length .pushc = 2 ∧ Instr.operandView .pushc = .raw)

/-- R64 (its numbers are D1): a Word decodes to an instruction exactly when it is that instruction's whole opcode Word, and
to none exactly when it is 17 or more; no bit of it is ignored. -/
def Obligations.DecodeIsWholeWordCompare : Prop :=
  ∀ w : Word, (∀ i : Instr, decode w = some i ↔ w = i.opcodeWord) ∧ (decode w = none ↔ 17 ≤ w.toNat)

/-- R60, R61: a written instruction is well formed exactly when the decoder, given its Words and any Words after them, reads
it back with its operand, whatever the operand is, and leaves the Words after them. -/
def Obligations.DecodeOfEncodeInstr : Prop :=
  ∀ (a : AsmInstr) (rest : List Word), a.wf = true ↔ decodeInstr (encode a ++ rest) = some (a, rest)

/-- R67, R68: decoding the image of a program of well-formed instructions gives the program back, every operand included. -/
def Obligations.DecodeOfEncodeProgram : Prop :=
  ∀ p : List AsmInstr, (∀ a ∈ p, a.wf = true) → decodeProgram (encodeProgram p) = some p

/-- R65, R68: what an image decodes to is well formed and encodes to that very image: each Word has one meaning. -/
def Obligations.EncodeOfDecodeProgram : Prop :=
  ∀ (ws : List Word) (p : List AsmInstr), decodeProgram ws = some p → (∀ a ∈ p, a.wf = true) ∧ encodeProgram p = ws

/-! ### The step -/

/-- R70 (D21), R71, R72 (the numbers are D1): when `PC` is an address and the Word there decodes to an instruction, the step of a running engine is that
instruction's meaning at the state after the fetch: one counted read, `IADDR` latched, `PC` advanced. -/
def Obligations.StepRunsDecodedInstruction : Prop :=
  ∀ (s : State) (i : Instr), s.run = .running → s.pc.toNat ≤ 65535 → decode (view s s.pcWord) = some i →
    step s = exec i { transact [.read s.pcWord] s with iaddr := s.pc, pc := s.pc + 1#17 }

/-- R71 (the range check is D3, the record D4): a fetch with `PC` above 65535 raises `AddressRange(PC)`, `IADDR` holding `PC`, and nothing else happens. -/
def Obligations.FetchBeyondMemoryFaults : Prop :=
  ∀ s : State, s.run = .running → 65535 < s.pc.toNat →
    step s = .next { s with
      iaddr := s.pc, run := .faulted, fault := some ⟨.addressRange, ctrlInt s.pc, s.pc⟩ }

/-- R122: an opcode Word 17..65535 raises `InvalidOpcode` with the Word as `info`, the fetch having been made and counted and
`PC = IADDR + 1`; and no instruction's own execution raises it, whatever operand or data Words it reads. -/
def Obligations.InvalidOpcodeRaisedAtDispatchOnly : Prop :=
  (∀ s : State, s.run = .running → s.pc.toNat ≤ 65535 → 17 ≤ (view s s.pcWord).toNat →
    step s = .next { transact [.read s.pcWord] s with
      iaddr := s.pc, pc := s.pc + 1#17, run := .faulted
      fault := some ⟨.invalidOpcode, unsigned (view s s.pcWord), s.pc⟩ }) ∧
  (∀ (i : Instr) (s t : State) (f : FaultRecord), exec i s = .next t → t.fault = some f → s.fault = none →
    f.cause ≠ .invalidOpcode)

/-- R77: once `RUN` is `Halted` or `Faulted` no step has a next state; the model stops under the two names it has for that. -/
def Obligations.StoppedEngineTakesNoStep : Prop :=
  ∀ s : State, (s.run = .halted → step s = .fault .engineHalted) ∧ (s.run = .faulted → step s = .fault .engineFaulted)

/-- R70 (D21): a step of a running engine always ends, in one of exactly three ways: `RUN` stays `Running`, becomes `Halted` with a
result, or becomes `Faulted` with a record that names this instruction. -/
def Obligations.RunningStepEndsInThreeWays : Prop :=
  ∀ s : State, s.run = .running → s.result = none → s.fault = none →
    ∃ t, step s = .next t ∧ t.iaddr = s.pc ∧
      ((t.run = .running ∧ t.result = none ∧ t.fault = none) ∨
        (t.run = .halted ∧ t.result.isSome = true ∧ t.fault = none) ∨
        (t.run = .faulted ∧ t.result = none ∧ ∃ f, t.fault = some f ∧ f.iaddr = s.pc))

/-! ### HALT and NOP -/

/-- R78: NOP is the opcode Word 1, alone; its execution has no effect, so its step's only effects are those of the fetch. -/
def Obligations.NopOnlyFetches : Prop :=
  encode (asm .nop) = [1#16] ∧ (∀ s : State, exec .nop s = .next s) ∧
  (∀ s : State, s.run = .running → s.pc.toNat ≤ 65535 → view s s.pcWord = 1#16 →
    step s = .next { transact [.read s.pcWord] s with iaddr := s.pc, pc := s.pc + 1#17 })

/-- R76 (the counted result read and the fault on an empty stack are the spec's decision D9): HALT reads the top of stack
through the cache, keeps it in `RESULT` and stops; `SP` and `FP` stay. On an empty stack it faults and `RESULT` stays. -/
def Obligations.HaltReadsResult : Prop :=
  (∀ s : State, s.sp.toNat ≤ 65535 →
    exec .halt s = .next { transact [.read s.spWord] s with result := some (view s s.spWord), run := .halted }) ∧
  (∀ s : State, 65535 < s.sp.toNat → exec .halt s = .next (raise .addressRange (ctrlInt s.sp) s))

/-! ### Arithmetic -/

/-- R81 to R84 (the wrap is D14): ADD, SUB and MULT read the top Word `a` and the next Word `b` in value view, write the
wrapped result over `b`, and move `SP` up by one; the two reads and the write are their only transactions. -/
def Obligations.AddSubMultResult : Prop :=
  ∀ s : State, s.sp.toNat ≤ 65534 →
    let S := s.spWord
    let a := signed (view s S)
    let b := signed (view (transact [.read S] s) (S + 1#16))
    exec .add s = .next
      { transact [.read S, .read (S + 1#16), .write (S + 1#16) (wrap16 (a + b))] s with sp := s.sp + 1#17 } ∧
    exec .sub s = .next
      { transact [.read S, .read (S + 1#16), .write (S + 1#16) (wrap16 (b - a))] s with sp := s.sp + 1#17 } ∧
    exec .mult s = .next
      { transact [.read S, .read (S + 1#16), .write (S + 1#16) (wrap16 (a * b))] s with sp := s.sp + 1#17 }

/-- R81 (from the checks of D3): an arithmetic instruction on an empty stack faults with nothing changed; on a stack of one
Word the second pop faults, `SP` then being 65536. -/
def Obligations.ArithmeticStackFaults : Prop :=
  ∀ i ∈ [Instr.add, .sub, .mult, .div], ∀ s : State,
    (65535 < s.sp.toNat → exec i s = .next (raise .addressRange (ctrlInt s.sp) s)) ∧
    (s.sp.toNat = 65535 →
      exec i s = .next (raise .addressRange 65536 { transact [.read s.spWord] s with sp := s.sp + 1#17 }))

/-- R85 (the rounding and the wrap of the quotient are D15): with a divisor that is not 0, DIV writes the quotient of the
value views rounded toward zero, dividend the Word pushed first. -/
def Obligations.DivResult : Prop :=
  ∀ s : State, s.sp.toNat ≤ 65534 → view s s.spWord ≠ 0#16 →
    let S := s.spWord
    let a := signed (view s S)
    let b := signed (view (transact [.read S] s) (S + 1#16))
    exec .div s = .next
      { transact [.read S, .read (S + 1#16), .write (S + 1#16) (wrap16 (b.tdiv a))] s with sp := s.sp + 1#17 }

/-- R123: DIV with a zero divisor raises `DivideByZero` with `info` 0 after both pops: `SP` has moved up by 2 and nothing is
pushed. -/
def Obligations.DivByZeroFaults : Prop :=
  ∀ s : State, s.sp.toNat ≤ 65534 → view s s.spWord = 0#16 →
    exec .div s = .next (raise .divideByZero 0
      { transact [.read s.spWord, .read (s.spWord + 1#16)] s with sp := s.sp + 2#17 })

/-- R87 (D15): for every dividend and every nonzero divisor the quotient DIV takes leaves a remainder smaller than the divisor
and zero or of the dividend's sign; and it fits a Word but for -32768 / -1, whose result wraps to -32768. -/
def Obligations.DivRoundsTowardZero : Prop :=
  ∀ b a : Word, a ≠ 0#16 →
    let q := aluDiv (signed b) (signed a)
    let rem := signed b - q * signed a
    rem.natAbs < (signed a).natAbs ∧ (rem = 0 ∨ (rem < 0 ↔ signed b < 0)) ∧
    (if signed b = -32768 ∧ signed a = -1 then signed (wrap16 q) = -32768 else signed (wrap16 q) = q)

/-- R86 (an inference of the spec, from D14): the result Words of ADD, SUB and MULT do not depend on whether the operands are
read signed or unsigned. -/
def Obligations.AddSubMultViewIndependent : Prop :=
  ∀ x y : Word,
    wrap16 (aluAdd (signed x) (signed y)) = wrap16 (aluAdd (unsigned x) (unsigned y)) ∧
    wrap16 (aluSub (signed x) (signed y)) = wrap16 (aluSub (unsigned x) (unsigned y)) ∧
    wrap16 (aluMult (signed x) (signed y)) = wrap16 (aluMult (unsigned x) (unsigned y))

/-! ### Control transfer -/

/-- R90: JMP is the opcode Word 8 and a target; it reads its operand once and assigns it to `PC`; with the operand past the
end of memory it faults. -/
def Obligations.JmpAssignsPc : Prop :=
  (∀ t : Word, encode ⟨.jmp, some t⟩ = [8#16, t]) ∧
  (∀ s : State, s.pc.toNat ≤ 65535 →
    exec .jmp s = .next { transact [.read s.pcWord] s with pc := (view s s.pcWord).setWidth 17 }) ∧
  (∀ s : State, 65535 < s.pc.toNat → exec .jmp s = .next (raise .addressRange (ctrlInt s.pc) s))

/-- R91 (the order and the unread operand are D7): JEQ pops first; on a zero Word it reads its operand and jumps, otherwise it
steps over the operand without reading it, wherever that lies; it faults on an empty stack, and when taken with its operand
past the end of memory. -/
def Obligations.JeqPopsThenBranches : Prop :=
  (∀ s : State, s.sp.toNat ≤ 65535 → view s s.spWord = 0#16 → s.pc.toNat ≤ 65535 →
    exec .jeq s = .next { transact [.read s.spWord, .read s.pcWord] s with
      sp := s.sp + 1#17, pc := (view (transact [.read s.spWord] s) s.pcWord).setWidth 17 }) ∧
  (∀ s : State, s.sp.toNat ≤ 65535 → view s s.spWord ≠ 0#16 →
    exec .jeq s = .next { transact [.read s.spWord] s with sp := s.sp + 1#17, pc := s.pc + 1#17 }) ∧
  (∀ s : State, 65535 < s.sp.toNat → exec .jeq s = .next (raise .addressRange (ctrlInt s.sp) s)) ∧
  (∀ s : State, s.sp.toNat ≤ 65535 → view s s.spWord = 0#16 → 65535 < s.pc.toNat →
    exec .jeq s = .next (raise .addressRange (ctrlInt s.pc) { transact [.read s.spWord] s with sp := s.sp + 1#17 }))

/-- R92 (the operand first is D6): CALL reads its operand, pushes the return address and the caller's `FP`, sets `PC` to the
operand and `FP` to the new `SP`. -/
def Obligations.CallPushesFrame : Prop :=
  ∀ s : State, s.pc.toNat ≤ 65534 → 2 ≤ s.sp.toNat → s.sp.toNat ≤ 65536 →
    let S := s.spWord
    exec .call s = .next
      { transact [.read s.pcWord, .write (S - 1#16) (s.pcWord + 1#16), .write (S - 2#16) s.fp] s with
        pc := (view s s.pcWord).setWidth 17, sp := s.sp - 2#17, fp := S - 2#16 }

/-- R92's faults (the return-address check is D16): no operand; a return address that is no Word, with nothing pushed; a push
at `SP = 0`; the second push at `SP = 1`, the return address then written at 0. -/
def Obligations.CallFaults : Prop :=
  ∀ s : State,
    (65535 < s.pc.toNat → exec .call s = .next (raise .addressRange (ctrlInt s.pc) s)) ∧
    (s.pc.toNat = 65535 →
      exec .call s = .next (raise .addressRange 65536 { transact [.read s.pcWord] s with pc := s.pc + 1#17 })) ∧
    (s.pc.toNat ≤ 65534 → s.sp.toNat = 0 →
      exec .call s = .next (raise .addressRange (-1) { transact [.read s.pcWord] s with pc := s.pc + 1#17 })) ∧
    (s.pc.toNat ≤ 65534 → s.sp.toNat = 1 →
      exec .call s = .next (raise .addressRange (-1)
        { transact [.read s.pcWord, .write 0#16 (s.pcWord + 1#16)] s with pc := s.pc + 1#17, sp := 0#17 }))

/-- R93 (the order of the store is D8, conflict C4): RETURN reads its operand, the return value and the two frame Words, then
stores the value at `FP + offset`, and only then assigns `PC`, `SP` and `FP`. -/
def Obligations.ReturnRestoresFrame : Prop :=
  ∀ s : State, s.pc.toNat ≤ 65535 → s.sp.toNat ≤ 65535 → s.fp.toNat ≤ 65534 →
    let P := s.pcWord
    let S := s.spWord
    let F := s.fp
    let ea := frameAddr F (view s P)
    let v := view (transact [.read P] s) S
    let rpc := view (transact [.read P, .read S] s) (F + 1#16)
    let rfp := view (transact [.read P, .read S, .read (F + 1#16)] s) F
    (0 ≤ ea → ea ≤ 65535 →
      exec .ret s = .next
        { transact [.read P, .read S, .read (F + 1#16), .read F, .write (wrap16 ea) v] s with
          pc := rpc.setWidth 17, sp := toCtrl ea, fp := rfp }) ∧
    (ea < 0 ∨ 65535 < ea →
      exec .ret s = .next (raise .addressRange ea
        { transact [.read P, .read S, .read (F + 1#16), .read F] s with pc := s.pc + 1#17 }))

/-- R93's earlier faults, in order (D3, D8): no operand; an empty stack; `FP = 65535`. -/
def Obligations.ReturnEarlyFaults : Prop :=
  ∀ s : State,
    (65535 < s.pc.toNat → exec .ret s = .next (raise .addressRange (ctrlInt s.pc) s)) ∧
    (s.pc.toNat ≤ 65535 → 65535 < s.sp.toNat →
      exec .ret s = .next (raise .addressRange (ctrlInt s.sp) { transact [.read s.pcWord] s with pc := s.pc + 1#17 })) ∧
    (s.pc.toNat ≤ 65535 → s.sp.toNat ≤ 65535 → s.fp = 65535#16 →
      exec .ret s = .next (raise .addressRange 65536
        { transact [.read s.pcWord, .read s.spWord] s with pc := s.pc + 1#17 }))

/-- R94, R95, R96 (inferences of the spec; D8): after a CALL that completes, the frame holds the caller's `FP` at `FP` and the
return address at `FP + 1`; and a RETURN that completes later, from any state whose `FP` is the frame's and whose two frame
Words are still there, resumes at the return address with the caller's `FP`, and leaves the value that was on top of the
stack on top of the stack at `FP + offset`, for every offset. -/
def Obligations.ReturnUndoesCall : Prop :=
  ∀ s t : State, s.run = .running → exec .call s = .next t → t.run = .running →
    view t t.fp = s.fp ∧ view t (t.fp + 1#16) = s.pcWord + 1#16 ∧
    ∀ u w : State, CacheInv u → u.run = .running → u.fp = t.fp →
      view u u.fp = s.fp → view u (u.fp + 1#16) = s.pcWord + 1#16 → exec .ret u = .next w → w.run = .running →
      w.pc = s.pc + 1#17 ∧ w.fp = s.fp ∧ ctrlInt w.sp = frameAddr u.fp (view u u.pcWord) ∧
        view w w.spWord = view u u.spWord

/-! ### Output -/

/-- R101 (the single read is D17): PRINTI reads the top Word once, emits it in value view and moves `SP` up by one; on an empty
stack it faults with nothing emitted. -/
def Obligations.PrintiEmitsThenPops : Prop :=
  (∀ s : State, s.sp.toNat ≤ 65535 →
    exec .printi s = .next { transact [.read s.spWord] s with
      out := s.out ++ [.printInt (signed (view s s.spWord))], sp := s.sp + 1#17 }) ∧
  (∀ s : State, 65535 < s.sp.toNat → exec .printi s = .next (raise .addressRange (ctrlInt s.sp) s))

/-- R102 (the operand first is D6, the events D18): PRINTS reads packed Words upward from its operand, one read each, up to and including the first (number `n`) with a
zero byte, and emits their characters, low byte first; a zero low byte hides its high byte. -/
def Obligations.PrintsEmitsString : Prop :=
  ∀ (s : State) (n : Nat), s.pc.toNat ≤ 65535 →
    let p := view s s.pcWord
    let reads (j : Nat) : List Access := .read s.pcWord :: readsFrom p j
    let w (j : Nat) : Word := view (transact (reads j) s) (p + BitVec.ofNat 16 j)
    p.toNat + n ≤ 65535 →
    (∀ j < n, lowByte (w j) ≠ 0#8 ∧ highByte (w j) ≠ 0#8) → (lowByte (w n) = 0#8 ∨ highByte (w n) = 0#8) →
    exec .prints s = .next { transact (reads (n + 1)) s with
      pc := s.pc + 1#17
      out := s.out ++
        ((List.range n).flatMap fun j => [.printChar (lowByte (w j)).toNat, .printChar (highByte (w j)).toNat]) ++
        (if lowByte (w n) = 0#8 then [] else [.printChar (lowByte (w n)).toNat]) }

/-- R102 (the fault at the end of memory is D19): PRINTS faults with its operand past the end of memory; and when no Word up to
the last has a zero byte, it faults at 65536 after reading them all, their characters staying in `OUT`. -/
def Obligations.PrintsFaults : Prop :=
  (∀ s : State, 65535 < s.pc.toNat → exec .prints s = .next (raise .addressRange (ctrlInt s.pc) s)) ∧
  (∀ s : State, s.pc.toNat ≤ 65535 →
    let p := view s s.pcWord
    let n := 65536 - p.toNat
    let reads (j : Nat) : List Access := .read s.pcWord :: readsFrom p j
    let w (j : Nat) : Word := view (transact (reads j) s) (p + BitVec.ofNat 16 j)
    (∀ j < n, lowByte (w j) ≠ 0#8 ∧ highByte (w j) ≠ 0#8) →
    exec .prints s = .next (raise .addressRange 65536 { transact (reads n) s with
      pc := s.pc + 1#17
      out := s.out ++
        ((List.range n).flatMap fun j => [.printChar (lowByte (w j)).toNat, .printChar (highByte (w j)).toNat]) }))

/-! ### Stack and memory moves -/

/-- R110: PUSHC is the opcode Word 12 and `k`; it pushes `k` unchanged, `PC` past the operand, `SP` one lower; it faults with
its operand past the end of memory, and from the push at `SP = 0`. -/
def Obligations.PushcPushesOperand : Prop :=
  (∀ k : Word, encode ⟨.pushc, some k⟩ = [12#16, k]) ∧
  (∀ s : State, s.pc.toNat ≤ 65535 → 1 ≤ s.sp.toNat → s.sp.toNat ≤ 65536 →
    exec .pushc s = .next
      { transact [.read s.pcWord, .write (s.spWord - 1#16) (view s s.pcWord)] s with pc := s.pc + 1#17, sp := s.sp - 1#17 }) ∧
  (∀ s : State, 65535 < s.pc.toNat → exec .pushc s = .next (raise .addressRange (ctrlInt s.pc) s)) ∧
  (∀ s : State, s.pc.toNat ≤ 65535 → s.sp.toNat = 0 →
    exec .pushc s = .next (raise .addressRange (-1) { transact [.read s.pcWord] s with pc := s.pc + 1#17 }))

/-- R111: PUSHA is the opcode Word 13 and an address; it pushes the current view of the address, read before the push; it
faults with its operand past the end of memory, and at `SP = 0` after the read has been made. -/
def Obligations.PushaPushesCell : Prop :=
  (∀ t : Word, encode ⟨.pusha, some t⟩ = [13#16, t]) ∧
  (∀ s : State, s.pc.toNat ≤ 65535 →
    let P := s.pcWord
    let addr := view s P
    (1 ≤ s.sp.toNat → s.sp.toNat ≤ 65536 →
      exec .pusha s = .next
        { transact [.read P, .read addr, .write (s.spWord - 1#16) (view (transact [.read P] s) addr)] s with
          pc := s.pc + 1#17, sp := s.sp - 1#17 }) ∧
    (s.sp.toNat = 0 →
      exec .pusha s = .next (raise .addressRange (-1) { transact [.read P, .read addr] s with pc := s.pc + 1#17 }))) ∧
  (∀ s : State, 65535 < s.pc.toNat → exec .pusha s = .next (raise .addressRange (ctrlInt s.pc) s))

/-- R112: PUSHR is the opcode Word 14 and an offset; it pushes the Word at `FP + offset`, `FP` unchanged; it faults with its
operand past the end of memory, at an effective address that is none, and at `SP = 0`. -/
def Obligations.PushrPushesFrameCell : Prop :=
  (∀ k : Word, encode ⟨.pushr, some k⟩ = [14#16, k]) ∧
  (∀ s : State, s.pc.toNat ≤ 65535 →
    let P := s.pcWord
    let ea := frameAddr s.fp (view s P)
    (0 ≤ ea → ea ≤ 65535 → 1 ≤ s.sp.toNat → s.sp.toNat ≤ 65536 →
      exec .pushr s = .next
        { transact [.read P, .read (wrap16 ea), .write (s.spWord - 1#16) (view (transact [.read P] s) (wrap16 ea))] s with
          pc := s.pc + 1#17, sp := s.sp - 1#17 }) ∧
    (ea < 0 ∨ 65535 < ea →
      exec .pushr s = .next (raise .addressRange ea { transact [.read P] s with pc := s.pc + 1#17 })) ∧
    (0 ≤ ea → ea ≤ 65535 → s.sp.toNat = 0 →
      exec .pushr s = .next (raise .addressRange (-1)
        { transact [.read P, .read (wrap16 ea)] s with pc := s.pc + 1#17 }))) ∧
  (∀ s : State, 65535 < s.pc.toNat → exec .pushr s = .next (raise .addressRange (ctrlInt s.pc) s))

/-- R113 (the operand first is D6): POPA reads its operand, pops, and stores the Word at the operand's address; it faults with
its operand past the end of memory, and on an empty stack. -/
def Obligations.PopaStoresTop : Prop :=
  (∀ s : State, s.pc.toNat ≤ 65535 →
    let P := s.pcWord
    (s.sp.toNat ≤ 65535 →
      exec .popa s = .next
        { transact [.read P, .read s.spWord, .write (view s P) (view (transact [.read P] s) s.spWord)] s with
          pc := s.pc + 1#17, sp := s.sp + 1#17 }) ∧
    (65535 < s.sp.toNat →
      exec .popa s = .next (raise .addressRange (ctrlInt s.sp) { transact [.read P] s with pc := s.pc + 1#17 }))) ∧
  (∀ s : State, 65535 < s.pc.toNat → exec .popa s = .next (raise .addressRange (ctrlInt s.pc) s))

/-- R114 (the operand first is D6): POPR reads its operand, pops, and stores the Word at `FP + offset`; a store address that
is none faults after the pop, the Word lost; an empty stack faults first, whatever the offset (R126). -/
def Obligations.PoprStoresTopInFrame : Prop :=
  (∀ s : State, s.pc.toNat ≤ 65535 →
    let P := s.pcWord
    let ea := frameAddr s.fp (view s P)
    (s.sp.toNat ≤ 65535 → 0 ≤ ea → ea ≤ 65535 →
      exec .popr s = .next
        { transact [.read P, .read s.spWord, .write (wrap16 ea) (view (transact [.read P] s) s.spWord)] s with
          pc := s.pc + 1#17, sp := s.sp + 1#17 }) ∧
    (s.sp.toNat ≤ 65535 → ea < 0 ∨ 65535 < ea →
      exec .popr s = .next (raise .addressRange ea
        { transact [.read P, .read s.spWord] s with pc := s.pc + 1#17, sp := s.sp + 1#17 })) ∧
    (65535 < s.sp.toNat →
      exec .popr s = .next (raise .addressRange (ctrlInt s.sp) { transact [.read P] s with pc := s.pc + 1#17 }))) ∧
  (∀ s : State, 65535 < s.pc.toNat → exec .popr s = .next (raise .addressRange (ctrlInt s.pc) s))

/-- R115 (an inference of the spec): a PUSHA of `x`, and then a POPA of `x` from a state with the same stack pointer and the
same Words in memory, leave `SP` and the Word at `x` as they were, and every Word but the pushed cell, and mark the line of
`x` dirty. -/
def Obligations.PushaThenPopaKeepsCell : Prop :=
  ∀ s t u w : State, CacheInv s → CacheInv u → s.run = .running → u.run = .running →
    exec .pusha s = .next t → t.run = .running → u.sp = t.sp → (∀ a, view u a = view t a) →
    view u u.pcWord = view s s.pcWord → exec .popa u = .next w → w.run = .running →
    w.sp = s.sp ∧ view w (view s s.pcWord) = view s (view s s.pcWord) ∧
      (∀ b, b ≠ s.spWord - 1#16 → view w b = view s b) ∧ (w.line (lineIndex (view s s.pcWord))).dirty = true

/-! ### Frames -/

/-- R12, R13, R21, R23, R24: what no instruction but the named ones writes. `IADDR` is written by none; `FP` only by CALL and
RETURN; `SP` by none of HALT, NOP, JMP, PRINTS; `RESULT` only by HALT; `OUT` only by PRINTI and PRINTS, which append; and `RUN`
and `FAULT` change only together in a fault, or `RUN` in HALT. -/
def Obligations.RegisterFrame : Prop :=
  ∀ (i : Instr) (s t : State), exec i s = .next t →
    t.iaddr = s.iaddr ∧
    (i ∉ [Instr.call, .ret] → t.fp = s.fp) ∧
    (i ∈ [Instr.halt, .nop, .jmp, .prints] → t.sp = s.sp) ∧
    (i ≠ .halt → t.result = s.result) ∧
    (i ∉ [Instr.printi, .prints] → t.out = s.out) ∧ s.out <+: t.out ∧
    ((t.run = s.run ∧ t.fault = s.fault) ∨
      (t.run = .faulted ∧ t.result = s.result ∧ ∃ f, t.fault = some f ∧ f.iaddr = s.iaddr) ∨
      (i = .halt ∧ t.run = .halted ∧ t.fault = s.fault))

/-- R54, R80: every Word of memory, as a read returns it, is unchanged but the ones the instruction stores to, whose addresses
`storedAddrs` computes; an instruction that faults has stored nothing, but CALL, whose first push may have been made (R125).
For the one address 65535 this needs the line invariant: before line 31 is first used, reading another address of that line
changes what 65535 reads as (R53). -/
def Obligations.MemoryFrame : Prop :=
  ∀ (i : Instr) (s t : State), CacheInvButSentinel s → s.run = .running → exec i s = .next t →
    ∀ b : Word, (b ≠ 65535#16 ∨ CacheInv s) →
      (t.run ≠ .faulted → b ∉ storedAddrs i s → view t b = view s b) ∧
      (t.run = .faulted → (i = .call → b ≠ s.spWord - 1#16) → view t b = view s b)

/-! ### The cache controller -/

/-- R34: a read whose line's tag is the whole address returns the line's contents, counts one hit, and changes nothing else. -/
def Obligations.ReadHitReturnsContents : Prop :=
  ∀ (s : State) (a : Word), (s.line (lineIndex a)).tag = a →
    cacheRead a s = ((s.line (lineIndex a)).contents, { s with hits := s.hits + 1 })

/-- R35: a read miss counts a miss and a main-memory read, writes a dirty victim back to its tag and counts that, then fills
the line, clean, with the Word main memory holds at the address, and returns it; nothing else changes. -/
def Obligations.ReadMissWritesBackThenFills : Prop :=
  ∀ (s : State) (a : Word), (s.line (lineIndex a)).tag ≠ a →
    let l := s.line (lineIndex a)
    cacheRead a s = (s.mem.read a.toNat, { s with
      misses := s.misses + 1
      memReads := s.memReads + 1
      memWrites := if l.dirty = true then s.memWrites + 1 else s.memWrites
      mem := if l.dirty = true then s.mem.write l.tag.toNat l.contents else s.mem
      cache := s.cache.set (lineIndex a).val ⟨a, s.mem.read a.toNat, false⟩ (lineIndex a).isLt })

/-- R36: a write whose line's tag is the address overwrites the contents and marks the line dirty, and changes nothing else: no
counter, no cell of main memory. -/
def Obligations.WriteMatchMarksDirty : Prop :=
  ∀ (s : State) (a v : Word), (s.line (lineIndex a)).tag = a →
    cacheWrite a v s = { s with cache := s.cache.set (lineIndex a).val ⟨a, v, true⟩ (lineIndex a).isLt }

/-- R37 (counting the write-back here is D10): a write whose line's tag differs writes a dirty victim back to its tag and counts
that, then installs the address and the Word, dirty; main memory is not read and nothing else is counted. -/
def Obligations.WriteDifferWritesBackThenInstalls : Prop :=
  ∀ (s : State) (a v : Word), (s.line (lineIndex a)).tag ≠ a →
    let l := s.line (lineIndex a)
    cacheWrite a v s = { s with
      memWrites := if l.dirty = true then s.memWrites + 1 else s.memWrites
      mem := if l.dirty = true then s.mem.write l.tag.toNat l.contents else s.mem
      cache := s.cache.set (lineIndex a).val ⟨a, v, true⟩ (lineIndex a).isLt }

/-- R32: the line of an address is its low five bits; two addresses share a line exactly when those agree; a line has 2,048
addresses; and consecutive addresses use consecutive lines, wrapping from 31 to 0. -/
def Obligations.LineIsLowFiveBits : Prop :=
  (∀ a : Word, (lineIndex a).val = (a.extractLsb' 0 5).toNat ∧ (lineIndex a).val = a.toNat % 32) ∧
  (∀ a b : Word, lineIndex a = lineIndex b ↔ a.extractLsb' 0 5 = b.extractLsb' 0 5) ∧
  (∀ (a : Word) (i : LineIndex), lineIndex a = i ↔ ∃ k : Fin 2048, a.toNat = 32 * k.val + i.val) ∧
  (∀ a : Word, (lineIndex (a + 1#16)).val = ((lineIndex a).val + 1) % 32)

/-- R40: main memory returns the last Word written to a cell, and a write changes no other cell. -/
def Obligations.MainMemoryHoldsLastWrite : Prop :=
  ∀ (s : State) (a b v : Word),
    memRead a (memWrite a v s) = v ∧ (b ≠ a → memRead b (memWrite a v s) = memRead b s) ∧
    memWrite a v s = { s with mem := (memWrite a v s).mem }

/-- R38 (an inference of the spec; D10, D11): over any transactions, every read is one hit or one miss, main-memory reads are
counted with the misses, and main-memory writes grow by at most one a transaction. -/
def Obligations.CountersCountAccesses : Prop :=
  ∀ (xs : List Access) (s : State),
    let t := transact xs s
    let reads := xs.filter fun x => match x with | .read _ => true | .write _ _ => false
    t.hits + t.misses = s.hits + s.misses + reads.length ∧
    t.memReads + s.misses = s.memReads + t.misses ∧
    s.memWrites ≤ t.memWrites ∧ t.memWrites ≤ s.memWrites + xs.length

/-- R58 (an inference of the spec): after an access its address stays resident over any accesses that do not touch another
address with the same low five bits, so that a read of it then is a hit. -/
def Obligations.AccessedAddressStaysResident : Prop :=
  ∀ (x : Access) (xs : List Access) (s : State),
    (∀ y ∈ xs, lineIndex y.addr = lineIndex x.addr → y.addr = x.addr) →
    let t := transact xs (x.run s)
    resident t x.addr ∧ (cacheRead x.addr t).2.hits = t.hits + 1 ∧ (cacheRead x.addr t).2.misses = t.misses

/-- R54 (2) (an inference of the spec): under the line invariant, any transactions leave every address with the Word a flat
memory would hold after them, and keep the invariant. -/
def Obligations.CacheRefinesFlatMemory : Prop :=
  ∀ (xs : List Access) (s : State), CacheInv s →
    CacheInv (transact xs s) ∧ ∀ b : Word, view (transact xs s) b = flatAfter xs (view s) b

/-- R55 (an inference of the spec): a read of an address returns the latest Word written to it, over any other reads and writes
between, evictions forced by addresses of the same line among them, with or without the boot condition. Its premise, that a
dirty line holds an address of its own line, holds at reset and is kept by every step (R56). -/
def Obligations.ReadReturnsLatestWrite : Prop :=
  ∀ (s : State) (a v : Word) (xs : List Access), DirtyPlaced s → (∀ w, Access.write a w ∉ xs) →
    (cacheRead a (transact xs (cacheWrite a v s))).1 = v

/-- R53 (an inference of the spec; D12, D24): right after reset a read of 65535 is a counted hit that returns the lines' reset
contents, every other address is not resident, and after any access to another address of line 31 address 65535 is not
resident and reads as main memory's Word. -/
def Obligations.SentinelLineAfterReset : Prop :=
  ∀ (img : List Word) (c : Word),
    let s := boot img c
    cacheRead 65535#16 s = (c, { s with hits := 1 }) ∧
    (∀ a : Word, a ≠ 65535#16 → ¬ resident s a) ∧
    (∀ x : Access, lineIndex x.addr = 31 → x.addr ≠ 65535#16 →
      ¬ resident (x.run s) 65535#16 ∧ view (x.run s) 65535#16 = s.mem.read 65535)

/-- R54 (4) (an inference of the spec): where only line 31 in its reset state breaks the line invariant, its first read miss or
its first write restores it. -/
def Obligations.SentinelLineHealed : Prop :=
  ∀ (s : State) (a v : Word), CacheInvButSentinel s → lineIndex a = 31 →
    (¬ resident s a → CacheInv (cacheRead a s).2) ∧ CacheInv (cacheWrite a v s)

/-- R51 (an inference of the spec): a Word stored at `PC` is what the next step fetches, as a hit, and decodes. -/
def Obligations.FetchSeesStore : Prop :=
  ∀ (s : State) (v : Word), s.run = .running → s.pc.toNat ≤ 65535 →
    let u := { cacheWrite s.pcWord v s with hits := s.hits + 1, iaddr := s.pc, pc := s.pc + 1#17 }
    step (cacheWrite s.pcWord v s) = match decode v with
      | some i => exec i u
      | none => .next (raise .invalidOpcode (unsigned v) u)

/-! ### Checked accesses and the fault entry -/

/-- R43 (D3): `Load` and `Store` make their one access at an integer 0..65535, and outside it raise `AddressRange` of that
integer with the cache not called. -/
def Obligations.AccessesAreRangeChecked : Prop :=
  ∀ (i : Int) (v : Word) (s : State),
    (0 ≤ i ∧ i ≤ 65535 →
      load i s = .done (view s (wrap16 i)) (transact [.read (wrap16 i)] s) ∧
      store i v s = .done () (transact [.write (wrap16 i) v] s)) ∧
    (i < 0 ∨ 65535 < i →
      load i s = .raised (raise .addressRange i s) ∧ store i v s = .raised (raise .addressRange i s))

/-- R75: `Pop` is one counted read of the cell at `SP`, which keeps its Word, and moves `SP` up by one; on an empty stack it
faults. -/
def Obligations.PopReadsThenIncrements : Prop :=
  ∀ s : State,
    (s.sp.toNat ≤ 65535 →
      pop s = .done (view s s.spWord) { transact [.read s.spWord] s with sp := s.sp + 1#17 } ∧ (s.sp + 1#17).toNat = s.sp.toNat + 1 ∧
      ∃ t, pop s = .done (view s s.spWord) t ∧ view t s.spWord = view s s.spWord) ∧
    (65535 < s.sp.toNat → pop s = .raised (raise .addressRange (ctrlInt s.sp) s))

/-- R124 (the record is D4): the fault entry writes the record (cause, info, `IADDR`) and `RUN`, and changes nothing else; after
it no step is taken (R127). -/
def Obligations.FaultEntryRecordsAndStops : Prop :=
  ∀ (c : Cause) (info : Int) (s : State),
    raise c info s = { s with fault := some ⟨c, info, s.iaddr⟩, run := .faulted } ∧
    step (raise c info s) = .fault .engineFaulted

/-! ### Reset -/

/-- R141 (the values of PC, SP, FP, memory, tags and dirty bits are the document's; the counters', D11, and those of RUN, RESULT,
FAULT, IADDR and OUT are the spec's own; the lines' contents are the free value of log 2): the reset state, and that it is a
reset with the empty image. -/
def Obligations.ResetValues : Prop :=
  State.reset.pc = 0#17 ∧ State.reset.sp = 65536#17 ∧ State.reset.fp = 0#16 ∧
  (∀ a, State.reset.mem.read a = 0#16) ∧
  (∀ i, (State.reset.line i).tag = 65535#16 ∧ (State.reset.line i).dirty = false ∧
    (State.reset.line i).contents = Config.lineResetContents) ∧
  State.reset.counters = ⟨0, 0, 0, 0⟩ ∧ State.reset.run = .running ∧ State.reset.result = none ∧
  State.reset.fault = none ∧ State.reset.iaddr = 0#17 ∧ State.reset.out = [] ∧
  State.reset = boot [] Config.lineResetContents

/-- R142 (the refusal of a longer image is D20): an image of at most 65,536 Words is loaded from address 0, and every other cell is
zero; a longer one is refused. -/
def Obligations.ImageIsLoaded : Prop :=
  ∀ (img : List Word) (c : Word),
    (img.length ≤ 65536 → ∃ s, loadImage img c = some s ∧ s = boot img c ∧
      ∀ a : Nat, s.mem.read a = (img[a]?).getD 0#16) ∧
    (65536 < img.length → loadImage img c = none)

/-- The state after a reset with an image that fits has every property the step is stated to keep, whatever the lines' reset
contents, but the line invariant: that holds exactly when the boot condition does, which is that the lines' reset contents are
the Word main memory holds at 65535 (R54 (3), an inference of the spec). One clause is about the model's own form and rests on
no rule: the canonical form of the memory list (log 3, DESIGN CHOICE). -/
def Obligations.BootMeetsEveryInvariant : Prop :=
  ∀ (img : List Word) (c : Word), img.length ≤ 65536 →
    RegistersInRange (boot img c) ∧ (boot img c).mem.wf ∧ DirtyPlaced (boot img c) ∧ CacheInvButSentinel (boot img c) ∧
    (boot img c).misses = (boot img c).memReads ∧ EndConsistent (boot img c) ∧ OutInRange (boot img c) ∧
    FaultInRange (boot img c) ∧ (CacheInv (boot img c) ↔ c = (boot img c).mem.read 65535)

/-! ### Invariants of every step -/

/-- R27 (an inference of the spec): the registers stay in their ranges, and between the steps of a running engine `PC` is at most
65536, but after a JEQ at 65535 that was not taken. -/
def Obligations.StepKeepsRegistersInRange : Prop :=
  ∀ s t : State, RegistersInRange s → step s = .next t →
    RegistersInRange t ∧
    (t.run = .running → t.pc.toNat ≤ 65536 ∨
      (t.pc.toNat = 65537 ∧ s.pc.toNat = 65535 ∧ decode (view s s.pcWord) = some .jeq))

/-- R54, R56 (inferences of the spec): every step keeps the line invariant, the invariant of every line but line 31 in its reset
state, and that a dirty line holds an address of its own line; and it keeps the canonical form of the memory list (the model's
own form of `MM`, log 3), so that equal memories are equal data. -/
def Obligations.StepKeepsMemoryInvariants : Prop :=
  ∀ s t : State, step s = .next t →
    (CacheInv s → CacheInv t) ∧ (CacheInvButSentinel s → CacheInvButSentinel t) ∧ (DirtyPlaced s → DirtyPlaced t) ∧
    (s.mem.wf → t.mem.wf)

/-- R38 (an inference of the spec; D11): `MISSES = MEMREADS` is kept, and no counter ever goes down. -/
def Obligations.StepKeepsMissesEqualReads : Prop :=
  ∀ s t : State, step s = .next t →
    (s.misses = s.memReads → t.misses = t.memReads) ∧
    s.hits ≤ t.hits ∧ s.misses ≤ t.misses ∧ s.memReads ≤ t.memReads ∧ s.memWrites ≤ t.memWrites

/-- R20 to R22, R24, R120 (the records are D4): `RESULT` and `FAULT` have values exactly in the run states they belong to, the
output log holds only events the port can carry, and a recorded fault is one of R120's. -/
def Obligations.StepKeepsRecordsConsistent : Prop :=
  ∀ s t : State, RegistersInRange s → step s = .next t →
    (EndConsistent s → EndConsistent t) ∧ (OutInRange s → OutInRange t) ∧
    (FaultInRange s → FaultInRange t) ∧ s.out <+: t.out

/-- R54 (an inference of the spec): the cache is invisible to a program. Two states under the line invariant that agree on the
registers, the run state, the output and the view of every address, whatever their lines, main memories and counters, step to
states that agree on all of that again, or stop for the same reason. -/
def Obligations.CacheIsInvisibleToProgram : Prop :=
  ∀ s t : State, CacheInv s → CacheInv t → SameToProgram s t →
    (∀ s', step s = .next s' → ∃ t', step t = .next t' ∧ SameToProgram s' t') ∧
    (∀ f, step s = .fault f → step t = .fault f)
end

