-- ==== Sys2Proof/Laws/Memory.lean ====
section
/-! SUPPORT. The laws of main memory: a read after a write (20_memory.md R40), and every operation keeps the canonical form. -/

namespace Sys2Proof.Machine.Memory

@[simp] theorem read_nil (a : Nat) : Memory.read [] a = 0#16 := rfl

theorem read_cons (k : Nat) (w : Word) (m : Memory) (a : Nat) :
    Memory.read ((k, w) :: m) a = if a < k then 0#16 else if a = k then w else Memory.read m a := rfl

theorem write_nil (a : Nat) (v : Word) : Memory.write [] a v = if v = 0#16 then [] else [(a, v)] := rfl

theorem write_cons (k : Nat) (w : Word) (m : Memory) (a : Nat) (v : Word) :
    Memory.write ((k, w) :: m) a v =
      if a < k then (if v = 0#16 then (k, w) :: m else (a, v) :: (k, w) :: m)
      else if a = k then (if v = 0#16 then m.dropWhile (fun c => decide (c.1 ≤ a)) else (a, v) :: m)
      else (k, w) :: Memory.write m a v := rfl

theorem ofImage_cons (a : Nat) (w : Word) (ws : List Word) :
    Memory.ofImage a (w :: ws) =
      if w = 0#16 then Memory.ofImage (a + 1) ws else (a, w) :: Memory.ofImage (a + 1) ws := rfl

/-- Dropping entries up to `a` does not change what a larger address reads as. -/
theorem read_dropWhile (m : Memory) {a b : Nat} (h : a < b) :
    Memory.read (m.dropWhile fun c => decide (c.1 ≤ a)) b = Memory.read m b := by
  induction m with
  | nil => rfl
  | cons c m ih =>
    obtain ⟨k, w⟩ := c
    by_cases hk : k ≤ a
    · have h1 : ¬ b < k := by omega
      have h2 : ¬ b = k := by omega
      simpa [List.dropWhile_cons, hk, read_cons, h1, h2] using ih
    · simp [hk]

/-- Once the entries up to `a` are dropped, every address up to `a` is unlisted. -/
theorem read_dropWhile_le (m : Memory) {a b : Nat} (h : b ≤ a) :
    Memory.read (m.dropWhile fun c => decide (c.1 ≤ a)) b = 0#16 := by
  induction m with
  | nil => rfl
  | cons c m ih =>
    obtain ⟨k, w⟩ := c
    by_cases hk : k ≤ a
    · simpa [List.dropWhile_cons, hk] using ih
    · have h1 : b < k := by omega
      simp [hk, read_cons, h1]

/-- A read after a write of the same address gives the Word written. -/
theorem read_write_same (m : Memory) (a : Nat) (v : Word) : (m.write a v).read a = v := by
  induction m with
  | nil => by_cases hv : v = 0#16 <;> simp [write_nil, read_cons, hv]
  | cons c m ih =>
    obtain ⟨k, w⟩ := c
    rw [write_cons]
    split
    · rename_i hlt
      split
      · rename_i hv; simp [read_cons, hlt, hv]
      · simp [read_cons]
    · rename_i hlt
      split
      · rename_i he
        split
        · rename_i hv; rw [read_dropWhile_le m (Nat.le_refl a), hv]
        · simp [read_cons]
      · rename_i hne
        rw [read_cons, if_neg hlt, if_neg hne, ih]

/-- A write leaves every other address alone. -/
theorem read_write_other (m : Memory) {a b : Nat} (v : Word) (h : b ≠ a) : (m.write a v).read b = m.read b := by
  induction m with
  | nil =>
    by_cases hv : v = 0#16
    · simp [write_nil, hv]
    · simp [write_nil, hv, read_cons, h]
  | cons c m ih =>
    obtain ⟨k, w⟩ := c
    rw [write_cons]
    split
    · rename_i hlt
      split
      · rfl
      · rw [read_cons a v]
        by_cases h1 : b < a
        · have h2 : b < k := by omega
          simp [h1, read_cons, h2]
        · rw [if_neg h1, if_neg h]
    · rename_i hlt
      split
      · rename_i he
        subst he
        split
        · rw [read_cons a w]
          by_cases h1 : b < a
          · rw [if_pos h1, read_dropWhile_le m (by omega)]
          · rw [if_neg h1, if_neg h, read_dropWhile m (by omega)]
        · simp [read_cons, h]
      · rw [read_cons, read_cons, ih]

theorem read_write (m : Memory) (a b : Nat) (v : Word) :
    (m.write a v).read b = if b = a then v else m.read b := by
  by_cases h : b = a
  · subst h; simp [read_write_same]
  · simp [h, read_write_other m v h]

/-- Every entry of a memory after a write is an old one or the one written. -/
theorem mem_write {m : Memory} {a : Nat} {v : Word} {c : Nat × Word} (h : c ∈ m.write a v) :
    c ∈ m ∨ (c = (a, v) ∧ v ≠ 0#16) := by
  induction m with
  | nil =>
    rw [write_nil] at h
    split at h
    · exact absurd h List.not_mem_nil
    · rename_i hv; exact Or.inr ⟨List.mem_singleton.1 h, hv⟩
  | cons d m ih =>
    obtain ⟨k, w⟩ := d
    rw [write_cons] at h
    split at h
    · split at h
      · exact Or.inl h
      · rename_i hv
        rcases List.mem_cons.1 h with h | h
        · exact Or.inr ⟨h, hv⟩
        · exact Or.inl h
    · split at h
      · split at h
        · exact Or.inl (List.mem_cons_of_mem _ ((List.dropWhile_sublist _).mem h))
        · rename_i hv
          rcases List.mem_cons.1 h with h | h
          · exact Or.inr ⟨h, hv⟩
          · exact Or.inl (List.mem_cons_of_mem _ h)
      · rcases List.mem_cons.1 h with h | h
        · exact Or.inl (h ▸ List.mem_cons_self)
        · rcases ih h with h | h
          · exact Or.inl (List.mem_cons_of_mem _ h)
          · exact Or.inr h

/-- The addresses stay strictly rising. -/
theorem pairwise_write {m : Memory} (h : m.Pairwise fun x y => x.1 < y.1) (a : Nat) (v : Word) :
    (m.write a v).Pairwise fun x y => x.1 < y.1 := by
  induction m with
  | nil => by_cases hv : v = 0#16 <;> simp [write_nil, hv]
  | cons d m ih =>
    obtain ⟨k, w⟩ := d
    have hk := List.pairwise_cons.1 h
    rw [write_cons]
    split
    · rename_i hlt
      split
      · exact h
      · refine List.pairwise_cons.2 ⟨fun c hc => ?_, h⟩
        rcases List.mem_cons.1 hc with rfl | hc
        · exact hlt
        · exact Nat.lt_trans hlt (hk.1 c hc)
    · split
      · rename_i he
        subst he
        split
        · exact hk.2.sublist (List.dropWhile_sublist _)
        · exact List.pairwise_cons.2 ⟨hk.1, hk.2⟩
      · refine List.pairwise_cons.2 ⟨fun c hc => ?_, ih hk.2⟩
        rcases mem_write hc with hc | ⟨rfl, -⟩
        · exact hk.1 c hc
        · show k < a
          omega

/-- A write inside the address space keeps the canonical form. -/
theorem wf_write {m : Memory} (h : m.wf) {a : Nat} (ha : a < 65536) (v : Word) : (m.write a v).wf := by
  refine ⟨pairwise_write h.1 a v, fun c hc => ?_⟩
  rcases mem_write hc with hc | ⟨rfl, hv⟩
  · exact h.2 c hc
  · exact ⟨ha, hv⟩

theorem wf_nil : Memory.wf [] := ⟨List.Pairwise.nil, fun _ h => absurd h List.not_mem_nil⟩

theorem mem_ofImage {a : Nat} {ws : List Word} {c : Nat × Word} (h : c ∈ Memory.ofImage a ws) :
    a ≤ c.1 ∧ c.1 < a + ws.length ∧ c.2 ≠ 0#16 := by
  induction ws generalizing a with
  | nil => exact absurd h List.not_mem_nil
  | cons w ws ih =>
    rw [ofImage_cons] at h
    split at h
    · have h' := ih h
      rw [List.length_cons]
      exact ⟨by omega, by omega, h'.2.2⟩
    · rename_i hw
      rcases List.mem_cons.1 h with rfl | h
      · refine ⟨Nat.le_refl _, ?_, hw⟩
        simp only [List.length_cons]
        omega
      · have h' := ih h
        rw [List.length_cons]
        exact ⟨by omega, by omega, h'.2.2⟩

theorem pairwise_ofImage (a : Nat) (ws : List Word) : (Memory.ofImage a ws).Pairwise fun x y => x.1 < y.1 := by
  induction ws generalizing a with
  | nil => exact List.Pairwise.nil
  | cons w ws ih =>
    rw [ofImage_cons]
    split
    · exact ih _
    · exact List.pairwise_cons.2 ⟨fun c hc => Nat.lt_of_succ_le (mem_ofImage hc).1, ih _⟩

/-- Loading an image that fits gives a memory in canonical form (R142). -/
theorem wf_ofImage {ws : List Word} (h : ws.length ≤ 65536) : (Memory.ofImage 0 ws).wf := by
  refine ⟨pairwise_ofImage 0 ws, fun c hc => ?_⟩
  have := mem_ofImage hc
  exact ⟨by omega, this.2.2⟩

end Sys2Proof.Machine.Memory
end

