-- ==== Sys2Proof/Laws/State.lean ====
section
/-! SUPPORT. What each setter does to each element of State: one lemma per field per update, so that no later proof unfolds
a record update; and what the setters do to one cache line. -/

namespace Sys2Proof.Machine

/-! `setPc` -/

@[simp] theorem setPc_pc (s : State) (v : Ctrl) : (s.setPc v).pc = v := rfl
@[simp] theorem setPc_sp (s : State) (v : Ctrl) : (s.setPc v).sp = s.sp := rfl
@[simp] theorem setPc_fp (s : State) (v : Ctrl) : (s.setPc v).fp = s.fp := rfl
@[simp] theorem setPc_mem (s : State) (v : Ctrl) : (s.setPc v).mem = s.mem := rfl
@[simp] theorem setPc_cache (s : State) (v : Ctrl) : (s.setPc v).cache = s.cache := rfl
@[simp] theorem setPc_memReads (s : State) (v : Ctrl) : (s.setPc v).memReads = s.memReads := rfl
@[simp] theorem setPc_memWrites (s : State) (v : Ctrl) : (s.setPc v).memWrites = s.memWrites := rfl
@[simp] theorem setPc_hits (s : State) (v : Ctrl) : (s.setPc v).hits = s.hits := rfl
@[simp] theorem setPc_misses (s : State) (v : Ctrl) : (s.setPc v).misses = s.misses := rfl
@[simp] theorem setPc_run (s : State) (v : Ctrl) : (s.setPc v).run = s.run := rfl
@[simp] theorem setPc_result (s : State) (v : Ctrl) : (s.setPc v).result = s.result := rfl
@[simp] theorem setPc_fault (s : State) (v : Ctrl) : (s.setPc v).fault = s.fault := rfl
@[simp] theorem setPc_iaddr (s : State) (v : Ctrl) : (s.setPc v).iaddr = s.iaddr := rfl
@[simp] theorem setPc_out (s : State) (v : Ctrl) : (s.setPc v).out = s.out := rfl

/-! `setSp` -/

@[simp] theorem setSp_pc (s : State) (v : Ctrl) : (s.setSp v).pc = s.pc := rfl
@[simp] theorem setSp_sp (s : State) (v : Ctrl) : (s.setSp v).sp = v := rfl
@[simp] theorem setSp_fp (s : State) (v : Ctrl) : (s.setSp v).fp = s.fp := rfl
@[simp] theorem setSp_mem (s : State) (v : Ctrl) : (s.setSp v).mem = s.mem := rfl
@[simp] theorem setSp_cache (s : State) (v : Ctrl) : (s.setSp v).cache = s.cache := rfl
@[simp] theorem setSp_memReads (s : State) (v : Ctrl) : (s.setSp v).memReads = s.memReads := rfl
@[simp] theorem setSp_memWrites (s : State) (v : Ctrl) : (s.setSp v).memWrites = s.memWrites := rfl
@[simp] theorem setSp_hits (s : State) (v : Ctrl) : (s.setSp v).hits = s.hits := rfl
@[simp] theorem setSp_misses (s : State) (v : Ctrl) : (s.setSp v).misses = s.misses := rfl
@[simp] theorem setSp_run (s : State) (v : Ctrl) : (s.setSp v).run = s.run := rfl
@[simp] theorem setSp_result (s : State) (v : Ctrl) : (s.setSp v).result = s.result := rfl
@[simp] theorem setSp_fault (s : State) (v : Ctrl) : (s.setSp v).fault = s.fault := rfl
@[simp] theorem setSp_iaddr (s : State) (v : Ctrl) : (s.setSp v).iaddr = s.iaddr := rfl
@[simp] theorem setSp_out (s : State) (v : Ctrl) : (s.setSp v).out = s.out := rfl

/-! `setFp` -/

@[simp] theorem setFp_pc (s : State) (v : Word) : (s.setFp v).pc = s.pc := rfl
@[simp] theorem setFp_sp (s : State) (v : Word) : (s.setFp v).sp = s.sp := rfl
@[simp] theorem setFp_fp (s : State) (v : Word) : (s.setFp v).fp = v := rfl
@[simp] theorem setFp_mem (s : State) (v : Word) : (s.setFp v).mem = s.mem := rfl
@[simp] theorem setFp_cache (s : State) (v : Word) : (s.setFp v).cache = s.cache := rfl
@[simp] theorem setFp_memReads (s : State) (v : Word) : (s.setFp v).memReads = s.memReads := rfl
@[simp] theorem setFp_memWrites (s : State) (v : Word) : (s.setFp v).memWrites = s.memWrites := rfl
@[simp] theorem setFp_hits (s : State) (v : Word) : (s.setFp v).hits = s.hits := rfl
@[simp] theorem setFp_misses (s : State) (v : Word) : (s.setFp v).misses = s.misses := rfl
@[simp] theorem setFp_run (s : State) (v : Word) : (s.setFp v).run = s.run := rfl
@[simp] theorem setFp_result (s : State) (v : Word) : (s.setFp v).result = s.result := rfl
@[simp] theorem setFp_fault (s : State) (v : Word) : (s.setFp v).fault = s.fault := rfl
@[simp] theorem setFp_iaddr (s : State) (v : Word) : (s.setFp v).iaddr = s.iaddr := rfl
@[simp] theorem setFp_out (s : State) (v : Word) : (s.setFp v).out = s.out := rfl

/-! `setIaddr` -/

@[simp] theorem setIaddr_pc (s : State) (v : Ctrl) : (s.setIaddr v).pc = s.pc := rfl
@[simp] theorem setIaddr_sp (s : State) (v : Ctrl) : (s.setIaddr v).sp = s.sp := rfl
@[simp] theorem setIaddr_fp (s : State) (v : Ctrl) : (s.setIaddr v).fp = s.fp := rfl
@[simp] theorem setIaddr_mem (s : State) (v : Ctrl) : (s.setIaddr v).mem = s.mem := rfl
@[simp] theorem setIaddr_cache (s : State) (v : Ctrl) : (s.setIaddr v).cache = s.cache := rfl
@[simp] theorem setIaddr_memReads (s : State) (v : Ctrl) : (s.setIaddr v).memReads = s.memReads := rfl
@[simp] theorem setIaddr_memWrites (s : State) (v : Ctrl) : (s.setIaddr v).memWrites = s.memWrites := rfl
@[simp] theorem setIaddr_hits (s : State) (v : Ctrl) : (s.setIaddr v).hits = s.hits := rfl
@[simp] theorem setIaddr_misses (s : State) (v : Ctrl) : (s.setIaddr v).misses = s.misses := rfl
@[simp] theorem setIaddr_run (s : State) (v : Ctrl) : (s.setIaddr v).run = s.run := rfl
@[simp] theorem setIaddr_result (s : State) (v : Ctrl) : (s.setIaddr v).result = s.result := rfl
@[simp] theorem setIaddr_fault (s : State) (v : Ctrl) : (s.setIaddr v).fault = s.fault := rfl
@[simp] theorem setIaddr_iaddr (s : State) (v : Ctrl) : (s.setIaddr v).iaddr = v := rfl
@[simp] theorem setIaddr_out (s : State) (v : Ctrl) : (s.setIaddr v).out = s.out := rfl

/-! `setLine` -/

@[simp] theorem setLine_pc (s : State) (i : LineIndex) (l : Line) : (s.setLine i l).pc = s.pc := rfl
@[simp] theorem setLine_sp (s : State) (i : LineIndex) (l : Line) : (s.setLine i l).sp = s.sp := rfl
@[simp] theorem setLine_fp (s : State) (i : LineIndex) (l : Line) : (s.setLine i l).fp = s.fp := rfl
@[simp] theorem setLine_mem (s : State) (i : LineIndex) (l : Line) : (s.setLine i l).mem = s.mem := rfl
@[simp] theorem setLine_cache (s : State) (i : LineIndex) (l : Line) : (s.setLine i l).cache = s.cache.set i.val l i.isLt := rfl
@[simp] theorem setLine_memReads (s : State) (i : LineIndex) (l : Line) : (s.setLine i l).memReads = s.memReads := rfl
@[simp] theorem setLine_memWrites (s : State) (i : LineIndex) (l : Line) : (s.setLine i l).memWrites = s.memWrites := rfl
@[simp] theorem setLine_hits (s : State) (i : LineIndex) (l : Line) : (s.setLine i l).hits = s.hits := rfl
@[simp] theorem setLine_misses (s : State) (i : LineIndex) (l : Line) : (s.setLine i l).misses = s.misses := rfl
@[simp] theorem setLine_run (s : State) (i : LineIndex) (l : Line) : (s.setLine i l).run = s.run := rfl
@[simp] theorem setLine_result (s : State) (i : LineIndex) (l : Line) : (s.setLine i l).result = s.result := rfl
@[simp] theorem setLine_fault (s : State) (i : LineIndex) (l : Line) : (s.setLine i l).fault = s.fault := rfl
@[simp] theorem setLine_iaddr (s : State) (i : LineIndex) (l : Line) : (s.setLine i l).iaddr = s.iaddr := rfl
@[simp] theorem setLine_out (s : State) (i : LineIndex) (l : Line) : (s.setLine i l).out = s.out := rfl

/-! `countHit` -/

@[simp] theorem countHit_pc (s : State) : (s.countHit).pc = s.pc := rfl
@[simp] theorem countHit_sp (s : State) : (s.countHit).sp = s.sp := rfl
@[simp] theorem countHit_fp (s : State) : (s.countHit).fp = s.fp := rfl
@[simp] theorem countHit_mem (s : State) : (s.countHit).mem = s.mem := rfl
@[simp] theorem countHit_cache (s : State) : (s.countHit).cache = s.cache := rfl
@[simp] theorem countHit_memReads (s : State) : (s.countHit).memReads = s.memReads := rfl
@[simp] theorem countHit_memWrites (s : State) : (s.countHit).memWrites = s.memWrites := rfl
@[simp] theorem countHit_hits (s : State) : (s.countHit).hits = s.hits + 1 := rfl
@[simp] theorem countHit_misses (s : State) : (s.countHit).misses = s.misses := rfl
@[simp] theorem countHit_run (s : State) : (s.countHit).run = s.run := rfl
@[simp] theorem countHit_result (s : State) : (s.countHit).result = s.result := rfl
@[simp] theorem countHit_fault (s : State) : (s.countHit).fault = s.fault := rfl
@[simp] theorem countHit_iaddr (s : State) : (s.countHit).iaddr = s.iaddr := rfl
@[simp] theorem countHit_out (s : State) : (s.countHit).out = s.out := rfl

/-! `countMiss` -/

@[simp] theorem countMiss_pc (s : State) : (s.countMiss).pc = s.pc := rfl
@[simp] theorem countMiss_sp (s : State) : (s.countMiss).sp = s.sp := rfl
@[simp] theorem countMiss_fp (s : State) : (s.countMiss).fp = s.fp := rfl
@[simp] theorem countMiss_mem (s : State) : (s.countMiss).mem = s.mem := rfl
@[simp] theorem countMiss_cache (s : State) : (s.countMiss).cache = s.cache := rfl
@[simp] theorem countMiss_memReads (s : State) : (s.countMiss).memReads = s.memReads + 1 := rfl
@[simp] theorem countMiss_memWrites (s : State) : (s.countMiss).memWrites = s.memWrites := rfl
@[simp] theorem countMiss_hits (s : State) : (s.countMiss).hits = s.hits := rfl
@[simp] theorem countMiss_misses (s : State) : (s.countMiss).misses = s.misses + 1 := rfl
@[simp] theorem countMiss_run (s : State) : (s.countMiss).run = s.run := rfl
@[simp] theorem countMiss_result (s : State) : (s.countMiss).result = s.result := rfl
@[simp] theorem countMiss_fault (s : State) : (s.countMiss).fault = s.fault := rfl
@[simp] theorem countMiss_iaddr (s : State) : (s.countMiss).iaddr = s.iaddr := rfl
@[simp] theorem countMiss_out (s : State) : (s.countMiss).out = s.out := rfl

/-! `countWriteBack` -/

@[simp] theorem countWriteBack_pc (s : State) : (s.countWriteBack).pc = s.pc := rfl
@[simp] theorem countWriteBack_sp (s : State) : (s.countWriteBack).sp = s.sp := rfl
@[simp] theorem countWriteBack_fp (s : State) : (s.countWriteBack).fp = s.fp := rfl
@[simp] theorem countWriteBack_mem (s : State) : (s.countWriteBack).mem = s.mem := rfl
@[simp] theorem countWriteBack_cache (s : State) : (s.countWriteBack).cache = s.cache := rfl
@[simp] theorem countWriteBack_memReads (s : State) : (s.countWriteBack).memReads = s.memReads := rfl
@[simp] theorem countWriteBack_memWrites (s : State) : (s.countWriteBack).memWrites = s.memWrites + 1 := rfl
@[simp] theorem countWriteBack_hits (s : State) : (s.countWriteBack).hits = s.hits := rfl
@[simp] theorem countWriteBack_misses (s : State) : (s.countWriteBack).misses = s.misses := rfl
@[simp] theorem countWriteBack_run (s : State) : (s.countWriteBack).run = s.run := rfl
@[simp] theorem countWriteBack_result (s : State) : (s.countWriteBack).result = s.result := rfl
@[simp] theorem countWriteBack_fault (s : State) : (s.countWriteBack).fault = s.fault := rfl
@[simp] theorem countWriteBack_iaddr (s : State) : (s.countWriteBack).iaddr = s.iaddr := rfl
@[simp] theorem countWriteBack_out (s : State) : (s.countWriteBack).out = s.out := rfl

/-! `emit` -/

@[simp] theorem emit_pc (s : State) (e : Event) : (emit e s).pc = s.pc := rfl
@[simp] theorem emit_sp (s : State) (e : Event) : (emit e s).sp = s.sp := rfl
@[simp] theorem emit_fp (s : State) (e : Event) : (emit e s).fp = s.fp := rfl
@[simp] theorem emit_mem (s : State) (e : Event) : (emit e s).mem = s.mem := rfl
@[simp] theorem emit_cache (s : State) (e : Event) : (emit e s).cache = s.cache := rfl
@[simp] theorem emit_memReads (s : State) (e : Event) : (emit e s).memReads = s.memReads := rfl
@[simp] theorem emit_memWrites (s : State) (e : Event) : (emit e s).memWrites = s.memWrites := rfl
@[simp] theorem emit_hits (s : State) (e : Event) : (emit e s).hits = s.hits := rfl
@[simp] theorem emit_misses (s : State) (e : Event) : (emit e s).misses = s.misses := rfl
@[simp] theorem emit_run (s : State) (e : Event) : (emit e s).run = s.run := rfl
@[simp] theorem emit_result (s : State) (e : Event) : (emit e s).result = s.result := rfl
@[simp] theorem emit_fault (s : State) (e : Event) : (emit e s).fault = s.fault := rfl
@[simp] theorem emit_iaddr (s : State) (e : Event) : (emit e s).iaddr = s.iaddr := rfl
@[simp] theorem emit_out (s : State) (e : Event) : (emit e s).out = s.out ++ [e] := rfl

/-! `memWrite` -/

@[simp] theorem memWrite_pc (s : State) (a v : Word) : (memWrite a v s).pc = s.pc := rfl
@[simp] theorem memWrite_sp (s : State) (a v : Word) : (memWrite a v s).sp = s.sp := rfl
@[simp] theorem memWrite_fp (s : State) (a v : Word) : (memWrite a v s).fp = s.fp := rfl
@[simp] theorem memWrite_mem (s : State) (a v : Word) : (memWrite a v s).mem = s.mem.write a.toNat v := rfl
@[simp] theorem memWrite_cache (s : State) (a v : Word) : (memWrite a v s).cache = s.cache := rfl
@[simp] theorem memWrite_memReads (s : State) (a v : Word) : (memWrite a v s).memReads = s.memReads := rfl
@[simp] theorem memWrite_memWrites (s : State) (a v : Word) : (memWrite a v s).memWrites = s.memWrites := rfl
@[simp] theorem memWrite_hits (s : State) (a v : Word) : (memWrite a v s).hits = s.hits := rfl
@[simp] theorem memWrite_misses (s : State) (a v : Word) : (memWrite a v s).misses = s.misses := rfl
@[simp] theorem memWrite_run (s : State) (a v : Word) : (memWrite a v s).run = s.run := rfl
@[simp] theorem memWrite_result (s : State) (a v : Word) : (memWrite a v s).result = s.result := rfl
@[simp] theorem memWrite_fault (s : State) (a v : Word) : (memWrite a v s).fault = s.fault := rfl
@[simp] theorem memWrite_iaddr (s : State) (a v : Word) : (memWrite a v s).iaddr = s.iaddr := rfl
@[simp] theorem memWrite_out (s : State) (a v : Word) : (memWrite a v s).out = s.out := rfl

/-! `raise` -/

@[simp] theorem raise_pc (s : State) (c : Cause) (n : Int) : (raise c n s).pc = s.pc := rfl
@[simp] theorem raise_sp (s : State) (c : Cause) (n : Int) : (raise c n s).sp = s.sp := rfl
@[simp] theorem raise_fp (s : State) (c : Cause) (n : Int) : (raise c n s).fp = s.fp := rfl
@[simp] theorem raise_mem (s : State) (c : Cause) (n : Int) : (raise c n s).mem = s.mem := rfl
@[simp] theorem raise_cache (s : State) (c : Cause) (n : Int) : (raise c n s).cache = s.cache := rfl
@[simp] theorem raise_memReads (s : State) (c : Cause) (n : Int) : (raise c n s).memReads = s.memReads := rfl
@[simp] theorem raise_memWrites (s : State) (c : Cause) (n : Int) : (raise c n s).memWrites = s.memWrites := rfl
@[simp] theorem raise_hits (s : State) (c : Cause) (n : Int) : (raise c n s).hits = s.hits := rfl
@[simp] theorem raise_misses (s : State) (c : Cause) (n : Int) : (raise c n s).misses = s.misses := rfl
@[simp] theorem raise_run (s : State) (c : Cause) (n : Int) : (raise c n s).run = .faulted := rfl
@[simp] theorem raise_result (s : State) (c : Cause) (n : Int) : (raise c n s).result = s.result := rfl
@[simp] theorem raise_fault (s : State) (c : Cause) (n : Int) : (raise c n s).fault = some ⟨c, n, s.iaddr⟩ := rfl
@[simp] theorem raise_iaddr (s : State) (c : Cause) (n : Int) : (raise c n s).iaddr = s.iaddr := rfl
@[simp] theorem raise_out (s : State) (c : Cause) (n : Int) : (raise c n s).out = s.out := rfl

/-! One cache line -/

@[simp] theorem setPc_line (s : State) (v : Ctrl) (j : LineIndex) : (s.setPc v).line j = s.line j := rfl
@[simp] theorem setSp_line (s : State) (v : Ctrl) (j : LineIndex) : (s.setSp v).line j = s.line j := rfl
@[simp] theorem setFp_line (s : State) (v : Word) (j : LineIndex) : (s.setFp v).line j = s.line j := rfl
@[simp] theorem setIaddr_line (s : State) (v : Ctrl) (j : LineIndex) : (s.setIaddr v).line j = s.line j := rfl
@[simp] theorem countHit_line (s : State) (j : LineIndex) : (s.countHit).line j = s.line j := rfl
@[simp] theorem countMiss_line (s : State) (j : LineIndex) : (s.countMiss).line j = s.line j := rfl
@[simp] theorem countWriteBack_line (s : State) (j : LineIndex) : (s.countWriteBack).line j = s.line j := rfl
@[simp] theorem emit_line (s : State) (e : Event) (j : LineIndex) : (emit e s).line j = s.line j := rfl
@[simp] theorem memWrite_line (s : State) (a v : Word) (j : LineIndex) : (memWrite a v s).line j = s.line j := rfl
@[simp] theorem raise_line (s : State) (c : Cause) (n : Int) (j : LineIndex) : (raise c n s).line j = s.line j := rfl

theorem setLine_line (s : State) (i j : LineIndex) (l : Line) :
    (s.setLine i l).line j = if j = i then l else s.line j := by
  unfold State.line State.setLine
  by_cases h : j = i
  · subst h; simp
  · rw [if_neg h]
    exact Vector.getElem_set_ne i.isLt j.isLt (fun e => h (Fin.ext e.symm))

@[simp] theorem setLine_line_self (s : State) (i : LineIndex) (l : Line) : (s.setLine i l).line i = l := by
  simp [setLine_line]

theorem setLine_line_ne (s : State) {i j : LineIndex} (l : Line) (h : j ≠ i) :
    (s.setLine i l).line j = s.line j := by
  simp [setLine_line, h]

/-! The main-memory port through each setter -/

@[simp] theorem memRead_setPc (s : State) (v : Ctrl) (b : Word) : memRead b (s.setPc v) = memRead b s := rfl
@[simp] theorem memRead_setSp (s : State) (v : Ctrl) (b : Word) : memRead b (s.setSp v) = memRead b s := rfl
@[simp] theorem memRead_setFp (s : State) (v : Word) (b : Word) : memRead b (s.setFp v) = memRead b s := rfl
@[simp] theorem memRead_setIaddr (s : State) (v : Ctrl) (b : Word) : memRead b (s.setIaddr v) = memRead b s := rfl
@[simp] theorem memRead_setLine (s : State) (i : LineIndex) (l : Line) (b : Word) : memRead b (s.setLine i l) = memRead b s := rfl
@[simp] theorem memRead_countHit (s : State) (b : Word) : memRead b (s.countHit) = memRead b s := rfl
@[simp] theorem memRead_countMiss (s : State) (b : Word) : memRead b (s.countMiss) = memRead b s := rfl
@[simp] theorem memRead_countWriteBack (s : State) (b : Word) : memRead b (s.countWriteBack) = memRead b s := rfl
@[simp] theorem memRead_emit (s : State) (e : Event) (b : Word) : memRead b (emit e s) = memRead b s := rfl
@[simp] theorem memRead_raise (s : State) (c : Cause) (n : Int) (b : Word) : memRead b (raise c n s) = memRead b s := rfl

/-- Two states are equal when all their elements are. -/
theorem State.ext_fields {s t : State} (pc : s.pc = t.pc) (sp : s.sp = t.sp) (fp : s.fp = t.fp) (mem : s.mem = t.mem)
    (cache : s.cache = t.cache) (memReads : s.memReads = t.memReads) (memWrites : s.memWrites = t.memWrites)
    (hits : s.hits = t.hits) (misses : s.misses = t.misses) (run : s.run = t.run) (result : s.result = t.result)
    (fault : s.fault = t.fault) (iaddr : s.iaddr = t.iaddr) (out : s.out = t.out) : s = t := by
  cases s
  cases t
  simp_all

end Sys2Proof.Machine
end

