-- ==== Sys2Proof/Laws/Cache.lean ====
section
/-! SUPPORT. Everything `cacheRead` and `cacheWrite` can do, said once (20_memory.md R34 to R37): the Word returned, the
lines, main memory, the counters, and that nothing else changes. -/

namespace Sys2Proof.Machine

theorem memRead_memWrite (a v b : Word) (s : State) :
    memRead b (memWrite a v s) = if b = a then v else memRead b s := by
  unfold memRead memWrite
  simp only [Memory.read_write]
  by_cases h : b = a
  · simp [h]
  · have : b.toNat ≠ a.toNat := fun e => h (BitVec.eq_of_toNat_eq e)
    simp [h, this]

/-! ### The write-back -/

theorem writeBack_dirty {l : Line} (h : l.dirty = true) (s : State) :
    writeBack l s = (memWrite l.tag l.contents s).countWriteBack := by simp [writeBack, h]

theorem writeBack_clean {l : Line} (h : l.dirty = false) (s : State) : writeBack l s = s := by simp [writeBack, h]

theorem writeBack_cache (l : Line) (s : State) : (writeBack l s).cache = s.cache := by
  unfold writeBack; split <;> rfl

@[simp] theorem writeBack_line (l : Line) (s : State) (j : LineIndex) : (writeBack l s).line j = s.line j := by
  unfold writeBack; split <;> rfl

theorem memRead_writeBack (l : Line) (s : State) (b : Word) :
    memRead b (writeBack l s) = if l.dirty = true ∧ b = l.tag then l.contents else memRead b s := by
  unfold writeBack
  split
  · rename_i h; simp [h, memRead_memWrite]
  · rename_i h; simp [h]

/-! ### The two operations, case by case -/

/-- A read hit (R34). -/
theorem cacheRead_hit {a : Word} {s : State} (h : (s.line (lineIndex a)).tag = a) :
    cacheRead a s = ((s.line (lineIndex a)).contents, s.countHit) := by
  simp [cacheRead, h]

/-- A read miss (R35): the Word filled is main memory's before the write-back, which is at another address. -/
theorem cacheRead_miss {a : Word} {s : State} (h : (s.line (lineIndex a)).tag ≠ a) :
    cacheRead a s = (memRead a s,
      (writeBack (s.line (lineIndex a)) s.countMiss).setLine (lineIndex a) ⟨a, memRead a s, false⟩) := by
  have hv : memRead a (writeBack (s.line (lineIndex a)) s.countMiss) = memRead a s := by
    rw [memRead_writeBack, if_neg (fun e => h e.2.symm), memRead_countMiss]
  simp [cacheRead, h, hv]

/-- A write whose tag matches (R36). -/
theorem cacheWrite_match {a : Word} {s : State} (v : Word) (h : (s.line (lineIndex a)).tag = a) :
    cacheWrite a v s = s.setLine (lineIndex a) ⟨a, v, true⟩ := by
  simp [cacheWrite, h]

/-- A write whose tag differs (R37). -/
theorem cacheWrite_differ {a : Word} {s : State} (v : Word) (h : (s.line (lineIndex a)).tag ≠ a) :
    cacheWrite a v s = (writeBack (s.line (lineIndex a)) s).setLine (lineIndex a) ⟨a, v, true⟩ := by
  simp [cacheWrite, h]

/-! ### What they return and what they leave -/

/-- `CacheRead(a)` returns `View(a)` (R54 (1)). -/
@[simp] theorem cacheRead_fst (a : Word) (s : State) : (cacheRead a s).1 = view s a := by
  unfold view
  by_cases h : (s.line (lineIndex a)).tag = a
  · rw [cacheRead_hit h, if_pos h]
  · rw [cacheRead_miss h, if_neg h]

theorem cacheRead_line (a : Word) (s : State) (j : LineIndex) :
    (cacheRead a s).2.line j =
      if j = lineIndex a ∧ (s.line j).tag ≠ a then ⟨a, memRead a s, false⟩ else s.line j := by
  by_cases h : (s.line (lineIndex a)).tag = a
  · rw [cacheRead_hit h, if_neg (fun e => e.2 (e.1 ▸ h))]; rfl
  · rw [cacheRead_miss h]
    by_cases hj : j = lineIndex a
    · subst hj; rw [if_pos ⟨rfl, h⟩]; simp
    · rw [if_neg (fun e => hj e.1)]; simp [setLine_line_ne, hj]

theorem cacheWrite_line (a v : Word) (s : State) (j : LineIndex) :
    (cacheWrite a v s).line j = if j = lineIndex a then ⟨a, v, true⟩ else s.line j := by
  by_cases h : (s.line (lineIndex a)).tag = a
  · rw [cacheWrite_match v h, setLine_line]
  · rw [cacheWrite_differ v h, setLine_line]; simp

theorem memRead_cacheRead (a b : Word) (s : State) :
    memRead b (cacheRead a s).2 =
      if (s.line (lineIndex a)).tag ≠ a ∧ (s.line (lineIndex a)).dirty = true ∧ b = (s.line (lineIndex a)).tag
      then (s.line (lineIndex a)).contents else memRead b s := by
  by_cases h : (s.line (lineIndex a)).tag = a
  · rw [cacheRead_hit h, if_neg (fun e => e.1 h)]; rfl
  · rw [cacheRead_miss h]; simp [memRead_writeBack, h]

theorem memRead_cacheWrite (a v b : Word) (s : State) :
    memRead b (cacheWrite a v s) =
      if (s.line (lineIndex a)).tag ≠ a ∧ (s.line (lineIndex a)).dirty = true ∧ b = (s.line (lineIndex a)).tag
      then (s.line (lineIndex a)).contents else memRead b s := by
  by_cases h : (s.line (lineIndex a)).tag = a
  · rw [cacheWrite_match v h, if_neg (fun e => e.1 h)]; rfl
  · rw [cacheWrite_differ v h]; simp [memRead_writeBack, h]

/-- After a read its address is resident (R58). -/
theorem cacheRead_resident (a : Word) (s : State) : resident (cacheRead a s).2 a := by
  unfold resident
  rw [cacheRead_line]
  split
  · rfl
  · rename_i h
    by_contra hne
    exact h ⟨rfl, hne⟩

/-- After a write its address is resident (R58). -/
theorem cacheWrite_resident (a v : Word) (s : State) : resident (cacheWrite a v s) a := by
  unfold resident
  rw [cacheWrite_line, if_pos rfl]

/-- A write is what the next view of its address gives. -/
@[simp] theorem view_cacheWrite_same (a v : Word) (s : State) : view (cacheWrite a v s) a = v := by
  simp [view, cacheWrite_line]

/-! ### The counters (R38) -/

@[simp] theorem writeBack_hits (l : Line) (s : State) : (writeBack l s).hits = s.hits := by
  unfold writeBack; split <;> rfl

@[simp] theorem writeBack_misses (l : Line) (s : State) : (writeBack l s).misses = s.misses := by
  unfold writeBack; split <;> rfl

@[simp] theorem writeBack_memReads (l : Line) (s : State) : (writeBack l s).memReads = s.memReads := by
  unfold writeBack; split <;> rfl

theorem writeBack_memWrites (l : Line) (s : State) :
    (writeBack l s).memWrites = if l.dirty = true then s.memWrites + 1 else s.memWrites := by
  unfold writeBack; split <;> rfl

@[simp] theorem cacheWrite_hits (a v : Word) (s : State) : (cacheWrite a v s).hits = s.hits := by
  unfold cacheWrite; simp only []; split <;> simp

@[simp] theorem cacheWrite_misses (a v : Word) (s : State) : (cacheWrite a v s).misses = s.misses := by
  unfold cacheWrite; simp only []; split <;> simp

@[simp] theorem cacheWrite_memReads (a v : Word) (s : State) : (cacheWrite a v s).memReads = s.memReads := by
  unfold cacheWrite; simp only []; split <;> simp

/-- A read is one hit, or one miss and one main-memory read. -/
theorem cacheRead_counts (a : Word) (s : State) :
    ((cacheRead a s).2.hits = s.hits + 1 ∧ (cacheRead a s).2.misses = s.misses ∧
        (cacheRead a s).2.memReads = s.memReads) ∨
      ((cacheRead a s).2.hits = s.hits ∧ (cacheRead a s).2.misses = s.misses + 1 ∧
        (cacheRead a s).2.memReads = s.memReads + 1) := by
  by_cases h : (s.line (lineIndex a)).tag = a
  · rw [cacheRead_hit h]; exact Or.inl ⟨rfl, rfl, rfl⟩
  · rw [cacheRead_miss h]; exact Or.inr (by simp)

/-- A read writes back at most one line. -/
theorem cacheRead_memWrites (a : Word) (s : State) :
    (cacheRead a s).2.memWrites = s.memWrites ∨ (cacheRead a s).2.memWrites = s.memWrites + 1 := by
  by_cases h : (s.line (lineIndex a)).tag = a
  · rw [cacheRead_hit h]; exact Or.inl rfl
  · rw [cacheRead_miss h, setLine_memWrites, writeBack_memWrites]
    split
    · exact Or.inr rfl
    · exact Or.inl rfl

/-- A write writes back at most one line. -/
theorem cacheWrite_memWrites (a v : Word) (s : State) :
    (cacheWrite a v s).memWrites = s.memWrites ∨ (cacheWrite a v s).memWrites = s.memWrites + 1 := by
  by_cases h : (s.line (lineIndex a)).tag = a
  · rw [cacheWrite_match v h]; exact Or.inl rfl
  · rw [cacheWrite_differ v h, setLine_memWrites, writeBack_memWrites]
    split
    · exact Or.inr rfl
    · exact Or.inl rfl

/-! ### The elements the cache controller does not touch -/

@[simp] theorem writeBack_pc (l : Line) (s : State) : (writeBack l s).pc = s.pc := by
  unfold writeBack; split <;> rfl

@[simp] theorem writeBack_sp (l : Line) (s : State) : (writeBack l s).sp = s.sp := by
  unfold writeBack; split <;> rfl

@[simp] theorem writeBack_fp (l : Line) (s : State) : (writeBack l s).fp = s.fp := by
  unfold writeBack; split <;> rfl

@[simp] theorem writeBack_run (l : Line) (s : State) : (writeBack l s).run = s.run := by
  unfold writeBack; split <;> rfl

@[simp] theorem writeBack_result (l : Line) (s : State) : (writeBack l s).result = s.result := by
  unfold writeBack; split <;> rfl

@[simp] theorem writeBack_fault (l : Line) (s : State) : (writeBack l s).fault = s.fault := by
  unfold writeBack; split <;> rfl

@[simp] theorem writeBack_iaddr (l : Line) (s : State) : (writeBack l s).iaddr = s.iaddr := by
  unfold writeBack; split <;> rfl

@[simp] theorem writeBack_out (l : Line) (s : State) : (writeBack l s).out = s.out := by
  unfold writeBack; split <;> rfl

@[simp] theorem cacheRead_pc (a : Word) (s : State) : (cacheRead a s).2.pc = s.pc := by
  unfold cacheRead; simp only []; split <;> simp

@[simp] theorem cacheWrite_pc (a v : Word) (s : State) : (cacheWrite a v s).pc = s.pc := by
  unfold cacheWrite; simp only []; split <;> simp

@[simp] theorem cacheRead_sp (a : Word) (s : State) : (cacheRead a s).2.sp = s.sp := by
  unfold cacheRead; simp only []; split <;> simp

@[simp] theorem cacheWrite_sp (a v : Word) (s : State) : (cacheWrite a v s).sp = s.sp := by
  unfold cacheWrite; simp only []; split <;> simp

@[simp] theorem cacheRead_fp (a : Word) (s : State) : (cacheRead a s).2.fp = s.fp := by
  unfold cacheRead; simp only []; split <;> simp

@[simp] theorem cacheWrite_fp (a v : Word) (s : State) : (cacheWrite a v s).fp = s.fp := by
  unfold cacheWrite; simp only []; split <;> simp

@[simp] theorem cacheRead_run (a : Word) (s : State) : (cacheRead a s).2.run = s.run := by
  unfold cacheRead; simp only []; split <;> simp

@[simp] theorem cacheWrite_run (a v : Word) (s : State) : (cacheWrite a v s).run = s.run := by
  unfold cacheWrite; simp only []; split <;> simp

@[simp] theorem cacheRead_result (a : Word) (s : State) : (cacheRead a s).2.result = s.result := by
  unfold cacheRead; simp only []; split <;> simp

@[simp] theorem cacheWrite_result (a v : Word) (s : State) : (cacheWrite a v s).result = s.result := by
  unfold cacheWrite; simp only []; split <;> simp

@[simp] theorem cacheRead_fault (a : Word) (s : State) : (cacheRead a s).2.fault = s.fault := by
  unfold cacheRead; simp only []; split <;> simp

@[simp] theorem cacheWrite_fault (a v : Word) (s : State) : (cacheWrite a v s).fault = s.fault := by
  unfold cacheWrite; simp only []; split <;> simp

@[simp] theorem cacheRead_iaddr (a : Word) (s : State) : (cacheRead a s).2.iaddr = s.iaddr := by
  unfold cacheRead; simp only []; split <;> simp

@[simp] theorem cacheWrite_iaddr (a v : Word) (s : State) : (cacheWrite a v s).iaddr = s.iaddr := by
  unfold cacheWrite; simp only []; split <;> simp

@[simp] theorem cacheRead_out (a : Word) (s : State) : (cacheRead a s).2.out = s.out := by
  unfold cacheRead; simp only []; split <;> simp

@[simp] theorem cacheWrite_out (a v : Word) (s : State) : (cacheWrite a v s).out = s.out := by
  unfold cacheWrite; simp only []; split <;> simp

/-! ### The register setters and the cache controller do not see each other -/

@[simp] theorem view_setPc (s : State) (x : Ctrl) (b : Word) : view (s.setPc x) b = view s b := rfl

theorem writeBack_setPc (s : State) (x : Ctrl) (l : Line) : writeBack l (s.setPc x) = (writeBack l s).setPc x := by
  unfold writeBack; split <;> rfl

@[simp] theorem cacheRead_setPc (s : State) (x : Ctrl) (a : Word) :
    (cacheRead a (s.setPc x)).2 = (cacheRead a s).2.setPc x := by
  by_cases h : (s.line (lineIndex a)).tag = a
  · rw [cacheRead_hit h, cacheRead_hit (s := s.setPc x) h]; rfl
  · rw [cacheRead_miss h, cacheRead_miss (s := s.setPc x) h]
    cases hd : (s.line (lineIndex a)).dirty <;> simp only [writeBack, setPc_line, hd, if_true, Bool.false_eq_true, if_false] <;> rfl

@[simp] theorem cacheWrite_setPc (s : State) (x : Ctrl) (a v : Word) :
    cacheWrite a v (s.setPc x) = (cacheWrite a v s).setPc x := by
  by_cases h : (s.line (lineIndex a)).tag = a
  · rw [cacheWrite_match v h, cacheWrite_match (s := s.setPc x) v h]; rfl
  · rw [cacheWrite_differ v h, cacheWrite_differ (s := s.setPc x) v h]
    cases hd : (s.line (lineIndex a)).dirty <;> simp only [writeBack, setPc_line, hd, if_true, Bool.false_eq_true, if_false] <;> rfl

@[simp] theorem view_setSp (s : State) (x : Ctrl) (b : Word) : view (s.setSp x) b = view s b := rfl

theorem writeBack_setSp (s : State) (x : Ctrl) (l : Line) : writeBack l (s.setSp x) = (writeBack l s).setSp x := by
  unfold writeBack; split <;> rfl

@[simp] theorem cacheRead_setSp (s : State) (x : Ctrl) (a : Word) :
    (cacheRead a (s.setSp x)).2 = (cacheRead a s).2.setSp x := by
  by_cases h : (s.line (lineIndex a)).tag = a
  · rw [cacheRead_hit h, cacheRead_hit (s := s.setSp x) h]; rfl
  · rw [cacheRead_miss h, cacheRead_miss (s := s.setSp x) h]
    cases hd : (s.line (lineIndex a)).dirty <;> simp only [writeBack, setSp_line, hd, if_true, Bool.false_eq_true, if_false] <;> rfl

@[simp] theorem cacheWrite_setSp (s : State) (x : Ctrl) (a v : Word) :
    cacheWrite a v (s.setSp x) = (cacheWrite a v s).setSp x := by
  by_cases h : (s.line (lineIndex a)).tag = a
  · rw [cacheWrite_match v h, cacheWrite_match (s := s.setSp x) v h]; rfl
  · rw [cacheWrite_differ v h, cacheWrite_differ (s := s.setSp x) v h]
    cases hd : (s.line (lineIndex a)).dirty <;> simp only [writeBack, setSp_line, hd, if_true, Bool.false_eq_true, if_false] <;> rfl

@[simp] theorem view_setFp (s : State) (x : Word) (b : Word) : view (s.setFp x) b = view s b := rfl

theorem writeBack_setFp (s : State) (x : Word) (l : Line) : writeBack l (s.setFp x) = (writeBack l s).setFp x := by
  unfold writeBack; split <;> rfl

@[simp] theorem cacheRead_setFp (s : State) (x : Word) (a : Word) :
    (cacheRead a (s.setFp x)).2 = (cacheRead a s).2.setFp x := by
  by_cases h : (s.line (lineIndex a)).tag = a
  · rw [cacheRead_hit h, cacheRead_hit (s := s.setFp x) h]; rfl
  · rw [cacheRead_miss h, cacheRead_miss (s := s.setFp x) h]
    cases hd : (s.line (lineIndex a)).dirty <;> simp only [writeBack, setFp_line, hd, if_true, Bool.false_eq_true, if_false] <;> rfl

@[simp] theorem cacheWrite_setFp (s : State) (x : Word) (a v : Word) :
    cacheWrite a v (s.setFp x) = (cacheWrite a v s).setFp x := by
  by_cases h : (s.line (lineIndex a)).tag = a
  · rw [cacheWrite_match v h, cacheWrite_match (s := s.setFp x) v h]; rfl
  · rw [cacheWrite_differ v h, cacheWrite_differ (s := s.setFp x) v h]
    cases hd : (s.line (lineIndex a)).dirty <;> simp only [writeBack, setFp_line, hd, if_true, Bool.false_eq_true, if_false] <;> rfl

@[simp] theorem view_setIaddr (s : State) (x : Ctrl) (b : Word) : view (s.setIaddr x) b = view s b := rfl

theorem writeBack_setIaddr (s : State) (x : Ctrl) (l : Line) : writeBack l (s.setIaddr x) = (writeBack l s).setIaddr x := by
  unfold writeBack; split <;> rfl

@[simp] theorem cacheRead_setIaddr (s : State) (x : Ctrl) (a : Word) :
    (cacheRead a (s.setIaddr x)).2 = (cacheRead a s).2.setIaddr x := by
  by_cases h : (s.line (lineIndex a)).tag = a
  · rw [cacheRead_hit h, cacheRead_hit (s := s.setIaddr x) h]; rfl
  · rw [cacheRead_miss h, cacheRead_miss (s := s.setIaddr x) h]
    cases hd : (s.line (lineIndex a)).dirty <;> simp only [writeBack, setIaddr_line, hd, if_true, Bool.false_eq_true, if_false] <;> rfl

@[simp] theorem cacheWrite_setIaddr (s : State) (x : Ctrl) (a v : Word) :
    cacheWrite a v (s.setIaddr x) = (cacheWrite a v s).setIaddr x := by
  by_cases h : (s.line (lineIndex a)).tag = a
  · rw [cacheWrite_match v h, cacheWrite_match (s := s.setIaddr x) v h]; rfl
  · rw [cacheWrite_differ v h, cacheWrite_differ (s := s.setIaddr x) v h]
    cases hd : (s.line (lineIndex a)).dirty <;> simp only [writeBack, setIaddr_line, hd, if_true, Bool.false_eq_true, if_false] <;> rfl

@[simp] theorem view_emit (s : State) (e : Event) (b : Word) : view (emit e s) b = view s b := rfl

theorem writeBack_emit (s : State) (e : Event) (l : Line) : writeBack l (emit e s) = emit e (writeBack l s) := by
  unfold writeBack; split <;> rfl

@[simp] theorem cacheRead_emit (s : State) (e : Event) (a : Word) :
    (cacheRead a (emit e s)).2 = emit e (cacheRead a s).2 := by
  by_cases h : (s.line (lineIndex a)).tag = a
  · rw [cacheRead_hit h, cacheRead_hit (s := emit e s) h]; rfl
  · rw [cacheRead_miss h, cacheRead_miss (s := emit e s) h]
    cases hd : (s.line (lineIndex a)).dirty <;> simp only [writeBack, emit_line, hd, if_true, Bool.false_eq_true, if_false] <;> rfl

@[simp] theorem cacheWrite_emit (s : State) (e : Event) (a v : Word) :
    cacheWrite a v (emit e s) = emit e (cacheWrite a v s) := by
  by_cases h : (s.line (lineIndex a)).tag = a
  · rw [cacheWrite_match v h, cacheWrite_match (s := emit e s) v h]; rfl
  · rw [cacheWrite_differ v h, cacheWrite_differ (s := emit e s) v h]
    cases hd : (s.line (lineIndex a)).dirty <;> simp only [writeBack, emit_line, hd, if_true, Bool.false_eq_true, if_false] <;> rfl

end Sys2Proof.Machine
end

