-- ==== Sys2Proof/Laws/Words.lean ====
section
/-! SUPPORT. The small laws of the readings of a Word and of the 17-bit registers (00_scope.md R5, 10_state.md R11, R12). -/

namespace Sys2Proof.Machine

theorem unsigned_nonneg (w : Word) : 0 ≤ unsigned w := Int.natCast_nonneg _

theorem unsigned_le (w : Word) : unsigned w ≤ 65535 := by
  unfold unsigned
  have := w.isLt
  omega

/-- The value view is the two's-complement reading. -/
theorem signed_eq_toInt (w : Word) : signed w = w.toInt := by
  unfold signed unsigned
  rw [BitVec.toInt_eq_msb_cond, BitVec.msb_eq_getLsbD_last]
  rfl

theorem signed_ge (w : Word) : -32768 ≤ signed w := by
  rw [signed_eq_toInt]
  have := BitVec.le_toInt w
  omega

theorem signed_le (w : Word) : signed w ≤ 32767 := by
  rw [signed_eq_toInt]
  have := BitVec.toInt_lt (x := w)
  omega

@[simp] theorem wrap16_unsigned (w : Word) : wrap16 (unsigned w) = w := by
  unfold wrap16 unsigned
  simp

@[simp] theorem wrap16_signed (w : Word) : wrap16 (signed w) = w := by
  rw [signed_eq_toInt]
  unfold wrap16
  simp

/-- An effective address is at least -32768 (R109). -/
theorem frameAddr_ge (fp off : Word) : -32768 ≤ frameAddr fp off := by
  have := unsigned_nonneg fp
  have := signed_ge off
  unfold frameAddr
  omega

/-- An effective address is at most 98302 (R109). -/
theorem frameAddr_le (fp off : Word) : frameAddr fp off ≤ 98302 := by
  have := unsigned_le fp
  have := signed_le off
  unfold frameAddr
  omega

/-- `wrap16` is reduction modulo 65536. -/
theorem unsigned_wrap16 (i : Int) : unsigned (wrap16 i) = i % 65536 := by
  unfold wrap16 unsigned
  rw [BitVec.toNat_ofInt]
  omega

/-- An integer that is an address is its own `wrap16`. -/
theorem toNat_wrap16 {i : Int} (h0 : 0 ≤ i) (h1 : i ≤ 65535) : (wrap16 i).toNat = i.toNat := by
  have := unsigned_wrap16 i
  unfold unsigned at this
  omega

theorem wrap16_inj_of_range {i j : Int} (hi0 : 0 ≤ i) (hi : i ≤ 65535) (hj0 : 0 ≤ j) (hj : j ≤ 65535)
    (h : wrap16 i = wrap16 j) : i = j := by
  have h1 := toNat_wrap16 hi0 hi
  have h2 := toNat_wrap16 hj0 hj
  rw [h] at h1
  omega

theorem ctrlInt_nonneg (c : Ctrl) : 0 ≤ ctrlInt c := Int.natCast_nonneg _

theorem toNat_toCtrl {i : Int} (h0 : 0 ≤ i) (h1 : i ≤ 131071) : (toCtrl i).toNat = i.toNat := by
  unfold toCtrl
  rw [BitVec.toNat_ofInt]
  omega

@[simp] theorem toCtrl_ctrlInt (c : Ctrl) : toCtrl (ctrlInt c) = c := by
  unfold toCtrl ctrlInt
  simp

@[simp] theorem toNat_wordToCtrl (w : Word) : (wordToCtrl w).toNat = w.toNat := by
  unfold wordToCtrl
  rw [BitVec.toNat_setWidth]
  have := w.isLt
  omega

theorem toNat_ctrl_add_one {c : Ctrl} (h : c.toNat < 131071) : (c + 1#17).toNat = c.toNat + 1 := by
  rw [BitVec.toNat_add]
  simp
  omega

/-- A push's new `SP`, where the check has passed. -/
theorem toCtrl_pred {c : Ctrl} (h : 0 < c.toNat) : toCtrl (ctrlInt c - 1) = c - 1#17 := by
  apply BitVec.eq_of_toNat_eq
  have := c.isLt
  rw [toNat_toCtrl (by unfold ctrlInt; omega) (by unfold ctrlInt; omega), BitVec.toNat_sub]
  unfold ctrlInt
  simp
  omega

theorem toNat_pred {c : Ctrl} (h : 0 < c.toNat) : (c - 1#17).toNat = c.toNat - 1 := by
  have := c.isLt
  rw [BitVec.toNat_sub]
  simp
  omega

theorem toNat_lowByte (w : Word) : (lowByte w).toNat = w.toNat % 256 := by
  unfold lowByte
  simp

theorem toNat_highByte (w : Word) : (highByte w).toNat = w.toNat / 256 := by
  unfold highByte
  have := w.isLt
  simp [Nat.shiftRight_eq_div_pow]
  omega

theorem isZeroWord_iff (w : Word) : isZeroWord w = true ↔ w = 0#16 := by
  unfold isZeroWord unsigned
  rw [beq_iff_eq]
  constructor
  · intro h
    apply BitVec.eq_of_toNat_eq
    simp
    omega
  · rintro rfl
    rfl

theorem isZeroDivisor_iff (w : Word) : isZeroDivisor w = true ↔ w = 0#16 := by
  unfold isZeroDivisor
  rw [beq_iff_eq]
  constructor
  · intro h
    rw [← wrap16_signed w, h]
    rfl
  · rintro rfl
    rfl

theorem isTerminator_iff (b : Byte) : isTerminator b = true ↔ b.toNat = 0 := by
  unfold isTerminator
  rw [beq_iff_eq]

theorem lineIndex_val (a : Word) : (lineIndex a).val = a.toNat % 32 := rfl

end Sys2Proof.Machine
end

