-- ==== Sys2Proof/Laws/Ops.lean ====
section
/-! SUPPORT. One law per shared operation: what it comes to where its address is in range, and the fault where it is not
(20_memory.md R43, 40_cycle_halt_nop.md R71, R73 to R75, 41_arithmetic.md R81). Later proofs cite these instead of
unfolding the operations. -/

namespace Sys2Proof.Machine

/-! ### Micro-steps -/

@[simp] theorem Micro.andThen_done {α β : Type} (v : α) (s : State) (k : α → State → Micro β) :
    (Micro.done v s).andThen k = k v s := rfl

@[simp] theorem Micro.andThen_raised {α β : Type} (s : State) (k : α → State → Micro β) :
    (Micro.raised s : Micro α).andThen k = .raised s := rfl

@[simp] theorem Micro.outcome_done {α : Type} (v : α) (s : State) : (Micro.done v s).outcome = .next s := rfl

@[simp] theorem Micro.outcome_raised {α : Type} (s : State) : (Micro.raised s : Micro α).outcome = .next s := rfl

/-- The state micro-steps end in, completed or raised. -/
def Micro.state {α : Type} : Micro α → State
  | .done _ s => s
  | .raised s => s

/-- Two next states that are equal are the same outcome. -/
theorem next_congr {s t : State} (h : s = t) : (.next s : Host.Outcome State Fault Refusal) = .next t := h ▸ rfl

theorem Micro.outcome_eq {α : Type} (m : Micro α) : m.outcome = .next m.state := by cases m <;> rfl

/-! ### Addresses in registers -/

@[simp] theorem wrap16_ctrlInt (c : Ctrl) : wrap16 (ctrlInt c) = c.setWidth 16 := by
  apply BitVec.eq_of_toNat_eq
  unfold wrap16 ctrlInt
  rw [BitVec.toNat_ofInt, BitVec.toNat_setWidth]
  omega

@[simp] theorem setWidth_pc (s : State) : s.pc.setWidth 16 = s.pcWord := rfl

@[simp] theorem setWidth_sp (s : State) : s.sp.setWidth 16 = s.spWord := rfl

theorem wrap16_pc (s : State) : wrap16 (ctrlInt s.pc) = s.pcWord := wrap16_ctrlInt s.pc

theorem wrap16_sp (s : State) : wrap16 (ctrlInt s.sp) = s.spWord := wrap16_ctrlInt s.sp

theorem wrap16_sub_one (i : Int) : wrap16 (i - 1) = wrap16 i - 1#16 := by
  apply BitVec.eq_of_toNat_eq
  have h1 := unsigned_wrap16 (i - 1)
  have h2 := unsigned_wrap16 i
  unfold unsigned at h1 h2
  have h3 := (wrap16 i).isLt
  rw [BitVec.toNat_sub]
  simp
  omega

theorem wrap16_add_one (i : Int) : wrap16 (i + 1) = wrap16 i + 1#16 := by
  apply BitVec.eq_of_toNat_eq
  have h1 := unsigned_wrap16 (i + 1)
  have h2 := unsigned_wrap16 i
  unfold unsigned at h1 h2
  rw [BitVec.toNat_add]
  simp
  omega

theorem toNat_pcWord {s : State} (h : s.pc.toNat ≤ 65535) : s.pcWord.toNat = s.pc.toNat := by
  unfold State.pcWord
  rw [BitVec.toNat_setWidth]
  omega

theorem toNat_spWord {s : State} (h : s.sp.toNat ≤ 65535) : s.spWord.toNat = s.sp.toNat := by
  unfold State.spWord
  rw [BitVec.toNat_setWidth]
  omega

@[simp] theorem setPc_pcWord (s : State) (v : Ctrl) : (s.setPc v).pcWord = v.setWidth 16 := rfl

@[simp] theorem setSp_pcWord (s : State) (v : Ctrl) : (s.setSp v).pcWord = s.pcWord := rfl

@[simp] theorem setPc_spWord (s : State) (v : Ctrl) : (s.setPc v).spWord = s.spWord := rfl

@[simp] theorem setSp_spWord (s : State) (v : Ctrl) : (s.setSp v).spWord = v.setWidth 16 := rfl

@[simp] theorem cacheRead_pcWord (a : Word) (s : State) : (cacheRead a s).2.pcWord = s.pcWord := by
  unfold State.pcWord; simp only [cacheRead_pc]

@[simp] theorem cacheRead_spWord (a : Word) (s : State) : (cacheRead a s).2.spWord = s.spWord := by
  unfold State.spWord; simp only [cacheRead_sp]

@[simp] theorem cacheWrite_pcWord (a v : Word) (s : State) : (cacheWrite a v s).pcWord = s.pcWord := by
  unfold State.pcWord; simp only [cacheWrite_pc]

@[simp] theorem cacheWrite_spWord (a v : Word) (s : State) : (cacheWrite a v s).spWord = s.spWord := by
  unfold State.spWord; simp only [cacheWrite_sp]

@[simp] theorem setWidth_succ (v : Ctrl) : (v + 1#17).setWidth 16 = v.setWidth 16 + 1#16 := by
  rw [BitVec.setWidth_add _ _ (by decide)]
  rfl

@[simp] theorem setWidth_pred (v : Ctrl) : (v - 1#17).setWidth 16 = v.setWidth 16 - 1#16 := by
  apply BitVec.eq_of_toNat_eq
  simp only [BitVec.toNat_setWidth, BitVec.toNat_sub]
  simp
  omega

/-! ### The checked accesses (R43) -/

theorem checkAddr_ok {i : Int} (h0 : 0 ≤ i) (h1 : i ≤ 65535) (s : State) : checkAddr i s = .done () s := by
  unfold checkAddr
  rw [if_neg (by omega)]

theorem checkAddr_fault {i : Int} (h : i < 0 ∨ 65535 < i) (s : State) :
    checkAddr i s = .raised (raise .addressRange i s) := by
  unfold checkAddr
  rw [if_pos h]
  rfl

theorem load_ok {i : Int} (h0 : 0 ≤ i) (h1 : i ≤ 65535) (s : State) :
    load i s = .done (view s (wrap16 i)) (cacheRead (wrap16 i) s).2 := by
  unfold load
  rw [checkAddr_ok h0 h1]
  simp

theorem load_fault {i : Int} (h : i < 0 ∨ 65535 < i) (s : State) :
    load i s = .raised (raise .addressRange i s) := by
  unfold load
  rw [checkAddr_fault h]
  rfl

theorem store_ok {i : Int} (h0 : 0 ≤ i) (h1 : i ≤ 65535) (v : Word) (s : State) :
    store i v s = .done () (cacheWrite (wrap16 i) v s) := by
  unfold store
  rw [checkAddr_ok h0 h1]
  rfl

theorem store_fault {i : Int} (h : i < 0 ∨ 65535 < i) (v : Word) (s : State) :
    store i v s = .raised (raise .addressRange i s) := by
  unfold store
  rw [checkAddr_fault h]
  rfl

/-- A load of an address given as a Word cannot fault (R42). -/
theorem load_word (a : Word) (s : State) : load (unsigned a) s = .done (view s a) (cacheRead a s).2 := by
  rw [load_ok (unsigned_nonneg a) (unsigned_le a), wrap16_unsigned]

/-- A store at an address given as a Word cannot fault (R42). -/
theorem store_word (a v : Word) (s : State) : store (unsigned a) v s = .done () (cacheWrite a v s) := by
  rw [store_ok (unsigned_nonneg a) (unsigned_le a), wrap16_unsigned]

/-! ### The cycle's primitives -/

theorem load_pc_ok {s : State} (h : s.pc.toNat ≤ 65535) :
    load (ctrlInt s.pc) s = .done (view s s.pcWord) (cacheRead s.pcWord s).2 := by
  rw [load_ok (ctrlInt_nonneg _) (by unfold ctrlInt; omega), wrap16_pc]

theorem load_pc_fault {s : State} (h : 65535 < s.pc.toNat) :
    load (ctrlInt s.pc) s = .raised (raise .addressRange (ctrlInt s.pc) s) :=
  load_fault (Or.inr (by unfold ctrlInt; omega)) s

theorem load_sp_ok {s : State} (h : s.sp.toNat ≤ 65535) :
    load (ctrlInt s.sp) s = .done (view s s.spWord) (cacheRead s.spWord s).2 := by
  rw [load_ok (ctrlInt_nonneg _) (by unfold ctrlInt; omega), wrap16_sp]

theorem load_sp_fault {s : State} (h : 65535 < s.sp.toNat) :
    load (ctrlInt s.sp) s = .raised (raise .addressRange (ctrlInt s.sp) s) :=
  load_fault (Or.inr (by unfold ctrlInt; omega)) s

theorem fetchOpcode_ok {s : State} (h : s.pc.toNat ≤ 65535) :
    fetchOpcode s = .done (view s s.pcWord) (((cacheRead s.pcWord s).2.setIaddr s.pc).setPc (s.pc + 1#17)) := by
  have h' := load_pc_ok (s := s.setIaddr s.pc) h
  simp only [setIaddr_pc] at h'
  unfold fetchOpcode
  rw [h']
  have e : (s.setIaddr s.pc).pcWord = s.pcWord := rfl
  simp [e]

theorem fetchOpcode_fault {s : State} (h : 65535 < s.pc.toNat) :
    fetchOpcode s = .raised (raise .addressRange (ctrlInt s.pc) (s.setIaddr s.pc)) := by
  have h' := load_pc_fault (s := s.setIaddr s.pc) h
  simp only [setIaddr_pc] at h'
  unfold fetchOpcode
  rw [h']
  rfl

theorem fetchOperand_ok {s : State} (h : s.pc.toNat ≤ 65535) :
    fetchOperand s = .done (view s s.pcWord) ((cacheRead s.pcWord s).2.setPc (s.pc + 1#17)) := by
  unfold fetchOperand
  rw [load_pc_ok h]
  simp

theorem fetchOperand_fault {s : State} (h : 65535 < s.pc.toNat) :
    fetchOperand s = .raised (raise .addressRange (ctrlInt s.pc) s) := by
  unfold fetchOperand
  rw [load_pc_fault h]
  rfl

theorem pop_ok {s : State} (h : s.sp.toNat ≤ 65535) :
    pop s = .done (view s s.spWord) ((cacheRead s.spWord s).2.setSp (s.sp + 1#17)) := by
  unfold pop
  rw [load_sp_ok h]
  simp

theorem pop_fault {s : State} (h : 65535 < s.sp.toNat) :
    pop s = .raised (raise .addressRange (ctrlInt s.sp) s) := by
  unfold pop
  rw [load_sp_fault h]
  rfl

theorem push_ok {s : State} (h0 : 1 ≤ s.sp.toNat) (h1 : s.sp.toNat ≤ 65536) (v : Word) :
    push v s = .done () ((cacheWrite (s.spWord - 1#16) v s).setSp (s.sp - 1#17)) := by
  unfold push
  simp only []
  rw [checkAddr_ok (by unfold ctrlInt; omega) (by unfold ctrlInt; omega), wrap16_sub_one, wrap16_sp, toCtrl_pred h0]
  simp

theorem push_empty_fault {s : State} (h : s.sp.toNat = 0) (v : Word) :
    push v s = .raised (raise .addressRange (-1) s) := by
  unfold push
  simp only []
  have e : ctrlInt s.sp - 1 = -1 := by unfold ctrlInt; omega
  rw [e, checkAddr_fault (Or.inl (by decide))]
  rfl

/-- A push from beyond the empty stack, which no run reaches (R27). -/
theorem push_beyond_fault {s : State} (h : 65536 < s.sp.toNat) (v : Word) :
    push v s = .raised (raise .addressRange (ctrlInt s.sp - 1) s) := by
  unfold push
  simp only []
  rw [checkAddr_fault (Or.inr (by unfold ctrlInt; omega))]
  rfl

/-! ### The string loop (R102) -/

/-- One turn of PRINTS's loop at address `65536 - (left + 1)`. -/
theorem printString_succ {left : Nat} (h : left < 65536) (s : State) :
    printString (left + 1) s =
      let p : Word := BitVec.ofNat 16 (65535 - left)
      let w := view s p
      let t := (cacheRead p s).2
      if isTerminator (lowByte w) then .done () t
      else if isTerminator (highByte w) then .done () (emit (.printChar (lowByte w).toNat) t)
      else printString left (emit (.printChar (highByte w).toNat) (emit (.printChar (lowByte w).toNat) t)) := by
  have e : wrap16 (65536 - ((left : Int) + 1)) = BitVec.ofNat 16 (65535 - left) := by
    apply BitVec.eq_of_toNat_eq
    rw [toNat_wrap16 (by omega) (by omega), BitVec.toNat_ofNat]
    omega
  rw [printString, load_ok (by omega) (by omega), e]
  rfl

theorem printString_zero (s : State) : printString 0 s = .raised (raise .addressRange 65536 s) := by
  rw [printString, load_fault (Or.inr (by decide))]
  rfl

end Sys2Proof.Machine
end

