-- ==== Sys2Proof/Laws/Engine.lean ====
section
/-! SUPPORT. What one instruction and one step can do, said once: `Kept i P` says what has to be shown of a property `P` for
the operations instruction `i` uses, and `exec_keeps` and `step_keeps` carry `P` through them, so that an invariant or a
frame is a few lines. -/

namespace Sys2Proof.Machine

/-- HALT's last two micro-steps (R76): `RESULT <- r; RUN <- Halted`. -/
def State.haltWith (s : State) (r : Word) : State := { s with result := some r, run := .halted }

/-- The faults an instruction's own execution raises (R120): a zero divisor, or an integer that is no address, computed from
`PC`, `SP`, or `FP` and an operand. -/
def RaisedInExec (c : Cause) (n : Int) (s : State) : Prop :=
  (c = .divideByZero ∧ n = 0) ∨
    (c = .addressRange ∧ -32768 ≤ n ∧ (n < 0 ∨ 65535 < n) ∧ (n ≤ 98302 ∨ n ≤ ctrlInt s.pc ∨ n ≤ ctrlInt s.sp))

/-- The values an instruction assigns to `PC` (R73, R89, R91): a Word, the address after an operand that was read, or, for a
JEQ not taken, the address after the operand. -/
def PcAssigned (i : Instr) (v : Ctrl) (s : State) : Prop :=
  (∃ w, v = wordToCtrl w) ∨ (s.pc.toNat ≤ 65535 ∧ v = s.pc + 1#17) ∨ (i = .jeq ∧ v = s.pc + 1#17)

/-- A property that the operations of instruction `i` keep: each field says that one operation does, where `i` uses it. -/
structure Kept (i : Instr) (P : State → Prop) : Prop where
  read : ∀ a s, P s → P (cacheRead a s).2
  write : i ∉ [Instr.halt, .nop, .jmp, .jeq, .printi, .prints] → ∀ a v s, P s → P (cacheWrite a v s)
  setPc : ∀ v s, PcAssigned i v s → P s → P (s.setPc v)
  setSp : i ∉ [Instr.halt, .nop, .jmp, .prints] → ∀ v s, v.toNat ≤ 65536 → P s → P (s.setSp v)
  setFp : i ∈ [Instr.call, .ret] → ∀ v s, P s → P (s.setFp v)
  emit : i ∈ [Instr.printi, .prints] → ∀ e s, e.inRange = true → P s → P (emit e s)
  raise : ∀ c n s, RaisedInExec c n s → P s → P (raise c n s)
  halt : i = .halt → ∀ r s, P s → P (s.haltWith r)

/-- The state micro-steps end in has the property. -/
def Micro.Has {α : Type} (m : Micro α) (P : State → Prop) : Prop := P m.state

theorem Micro.Has.done {α : Type} {P : State → Prop} (v : α) {s : State} (h : P s) : (Micro.done v s).Has P := h

theorem Micro.Has.andThen {α β : Type} {P : State → Prop} {m : Micro α} {k : α → State → Micro β} (hm : m.Has P)
    (hk : ∀ v s, P s → (k v s).Has P) : (m.andThen k).Has P := by
  cases m with
  | done v s => exact hk v s hm
  | raised s => exact hm

theorem printInt_inRange (v : Word) : (Event.printInt (signed v)).inRange = true := by
  have h1 := signed_ge v
  have h2 := signed_le v
  simp [Event.inRange, h1, h2]

theorem printChar_inRange {b : Byte} (h : isTerminator b ≠ true) : (Event.printChar b.toNat).inRange = true := by
  rw [ne_eq, isTerminator_iff] at h
  have := b.isLt
  simp only [Event.inRange, Bool.and_eq_true, decide_eq_true_eq]
  omega

/-- What reading, emitting and a fault keep, the string loop keeps. -/
theorem printString_has {P : State → Prop} (hread : ∀ a s, P s → P (cacheRead a s).2)
    (hemit : ∀ e s, e.inRange = true → P s → P (emit e s)) (hraise : ∀ c n s, RaisedInExec c n s → P s → P (raise c n s)) (left : Nat) :
    ∀ {s : State}, left ≤ 65536 → P s → (printString left s).Has P := by
  induction left with
  | zero => intro s _ h; rw [printString_zero]; exact hraise _ _ _ (Or.inr ⟨rfl, by decide, by decide, Or.inl (by decide)⟩) h
  | succ left ih =>
    intro s hl h
    rw [printString_succ (by omega)]
    have h1 := hread (BitVec.ofNat 16 (65535 - left)) s h
    dsimp only
    split
    · exact h1
    · rename_i hlo
      have h2 := hemit _ _ (printChar_inRange hlo) h1
      split
      · exact h2
      · rename_i hhi
        exact ih (by omega) (hemit _ _ (printChar_inRange hhi) h2)

namespace Kept

variable {i : Instr} {P : State → Prop}

theorem checkAddr (K : Kept i P) {n : Int} {s : State} (h0 : -32768 ≤ n)
    (h1 : n ≤ 98302 ∨ n ≤ ctrlInt s.pc ∨ n ≤ ctrlInt s.sp) (h : P s) : (checkAddr n s).Has P := by
  by_cases hn : n < 0 ∨ 65535 < n
  · rw [checkAddr_fault hn]; exact K.raise _ _ _ (Or.inr ⟨rfl, h0, hn, h1⟩) h
  · rw [checkAddr_ok (by omega) (by omega)]; exact h

theorem load (K : Kept i P) {n : Int} {s : State} (h0 : -32768 ≤ n)
    (h1 : n ≤ 98302 ∨ n ≤ ctrlInt s.pc ∨ n ≤ ctrlInt s.sp) (h : P s) : (load n s).Has P :=
  (K.checkAddr h0 h1 h).andThen fun _ _ h => K.read _ _ h

theorem load_pc (K : Kept i P) {s : State} (h : P s) : (Machine.load (ctrlInt s.pc) s).Has P :=
  K.load (by have := ctrlInt_nonneg s.pc; omega) (Or.inr (Or.inl (Int.le_refl _))) h

theorem load_sp (K : Kept i P) {s : State} (h : P s) : (Machine.load (ctrlInt s.sp) s).Has P :=
  K.load (by have := ctrlInt_nonneg s.sp; omega) (Or.inr (Or.inr (Int.le_refl _))) h

theorem load_frame (K : Kept i P) (off : Word) {s : State} (h : P s) : (Machine.load (frameAddr s.fp off) s).Has P :=
  K.load (frameAddr_ge _ _) (Or.inl (frameAddr_le _ _)) h

theorem store (K : Kept i P) (hi : i ∉ [Instr.halt, .nop, .jmp, .jeq, .printi, .prints]) {n : Int} (v : Word) {s : State}
    (h0 : -32768 ≤ n) (h1 : n ≤ 98302) (h : P s) : (store n v s).Has P :=
  (K.checkAddr h0 (Or.inl h1) h).andThen fun _ _ h => K.write hi _ _ _ h

theorem fetchOperand (K : Kept i P) {s : State} (h : P s) : (fetchOperand s).Has P := by
  by_cases hp : s.pc.toNat ≤ 65535
  · rw [fetchOperand_ok hp]
    refine K.setPc _ _ (Or.inr (Or.inl ?_)) (K.read _ _ h)
    rw [cacheRead_pc]; exact ⟨hp, rfl⟩
  · rw [fetchOperand_fault (by omega)]
    exact K.raise _ _ _ (Or.inr ⟨rfl, by have := ctrlInt_nonneg s.pc; omega, Or.inr (by unfold ctrlInt; omega),
      Or.inr (Or.inl (Int.le_refl _))⟩) h

theorem pop (K : Kept i P) (hi : i ∉ [Instr.halt, .nop, .jmp, .prints]) {s : State} (h : P s) : (pop s).Has P := by
  by_cases hp : s.sp.toNat ≤ 65535
  · rw [pop_ok hp]
    exact K.setSp hi _ _ (by rw [toNat_ctrl_add_one (by omega)]; omega) (K.read _ _ h)
  · rw [pop_fault (by omega)]
    exact K.raise _ _ _ (Or.inr ⟨rfl, by have := ctrlInt_nonneg s.sp; omega, Or.inr (by unfold ctrlInt; omega),
      Or.inr (Or.inr (Int.le_refl _))⟩) h

theorem push (K : Kept i P) (hi : i ∉ [Instr.halt, .nop, .jmp, .jeq, .printi, .prints]) (v : Word) {s : State} (h : P s) :
    (push v s).Has P := by
  by_cases h0 : s.sp.toNat = 0
  · rw [push_empty_fault h0]
    exact K.raise _ _ _ (Or.inr ⟨rfl, by decide, by decide, Or.inl (by decide)⟩) h
  by_cases h1 : s.sp.toNat ≤ 65536
  · rw [push_ok (by omega) h1]
    exact K.setSp (fun hm => hi (by simp at hm ⊢; tauto)) _ _ (by rw [toNat_pred (by omega)]; omega) (K.write hi _ _ _ h)
  · rw [push_beyond_fault (by omega)]
    exact K.raise _ _ _ (Or.inr ⟨rfl, by unfold ctrlInt; omega, by unfold ctrlInt; omega, by omega⟩) h

theorem binOp (K : Kept i P) (hi : i ∉ [Instr.halt, .nop, .jmp, .jeq, .printi, .prints]) (f : Int → Int → Int) {s : State}
    (h : P s) : (binOp f s).Has P :=
  have hs : i ∉ [Instr.halt, .nop, .jmp, .prints] := fun hm => hi (by simp at hm ⊢; tauto)
  (K.pop hs h).andThen fun _ _ h => (K.pop hs h).andThen fun _ _ h => K.push hi _ h

end Kept

/-- Every instruction has a next state. -/
theorem exec_next (i : Instr) (s : State) : ∃ t, exec i s = .next t := by
  cases i <;> first | exact ⟨_, rfl⟩ | exact ⟨_, Micro.outcome_eq _⟩

/-- A property the operations of an instruction keep is kept by the instruction. -/
theorem exec_keeps {P : State → Prop} {i : Instr} (K : Kept i P) {s t : State} (h : P s) (e : exec i s = .next t) :
    P t := by
  have key : ∀ {α : Type} (m : Micro α), m.Has P → m.outcome = .next t → P t := by
    intro α m hm hm'
    rw [Micro.outcome_eq] at hm'
    cases hm'
    exact hm
  cases i with
  | halt => exact key _ ((K.load_sp h).andThen fun r _ h => Micro.Has.done () (K.halt rfl r _ h)) e
  | nop => cases e; exact h
  | add => exact key _ (K.binOp (by decide) _ h) e
  | sub => exact key _ (K.binOp (by decide) _ h) e
  | mult => exact key _ (K.binOp (by decide) _ h) e
  | div =>
    refine key _ ((K.pop (by decide) h).andThen fun a _ h => (K.pop (by decide) h).andThen fun b s h => ?_) e
    split
    · exact K.raise _ _ _ (Or.inl ⟨rfl, rfl⟩) h
    · exact K.push (by decide) _ h
  | call =>
    refine key _ ((K.fetchOperand h).andThen fun t s h => (K.checkAddr ?_ ?_ h).andThen fun _ _ h =>
      (K.push (by decide) _ h).andThen fun _ _ h => (K.push (by decide) _ h).andThen fun _ _ h =>
        Micro.Has.done () (K.setFp (by decide) _ _ (K.setPc _ _ (Or.inl ⟨t, rfl⟩) h))) e
    · have := ctrlInt_nonneg s.pc; omega
    · exact Or.inr (Or.inl (Int.le_refl _))
  | ret =>
    refine key _ ((K.fetchOperand h).andThen fun off s h => (K.load_sp h).andThen fun v s h =>
      (K.load (by have := unsigned_nonneg s.fp; omega) (Or.inl (by have := unsigned_le s.fp; omega)) h).andThen fun rpc s h =>
        (K.load (by have := unsigned_nonneg s.fp; omega) (Or.inl (by have := unsigned_le s.fp; omega)) h).andThen
          fun rfp s h => ?_) e
    by_cases hr : frameAddr s.fp off < 0 ∨ 65535 < frameAddr s.fp off
    · rw [store_fault hr]
      exact K.raise _ _ _ (Or.inr ⟨rfl, frameAddr_ge _ _, hr, Or.inl (frameAddr_le _ _)⟩) h
    · rw [store_ok (by omega) (by omega)]
      refine Micro.Has.done () (K.setFp (by decide) _ _ (K.setSp (by decide) _ _ ?_
        (K.setPc _ _ (Or.inl ⟨rpc, rfl⟩) (K.write (by decide) _ _ _ h))))
      rw [cacheWrite_fp, toNat_toCtrl (by omega) (by omega)]; omega
  | jmp => exact key _ ((K.load_pc h).andThen fun t _ h => Micro.Has.done () (K.setPc _ _ (Or.inl ⟨t, rfl⟩) h)) e
  | jeq =>
    refine key _ ((K.pop (by decide) h).andThen fun v s h => ?_) e
    split
    · exact (K.load_pc h).andThen fun t _ h => Micro.Has.done () (K.setPc _ _ (Or.inl ⟨t, rfl⟩) h)
    · exact K.setPc _ _ (Or.inr (Or.inr ⟨rfl, rfl⟩)) h
  | printi =>
    by_cases hs : s.sp.toNat ≤ 65535
    · have e' : execPrinti s = .next t := e
      unfold execPrinti at e'
      rw [load_sp_ok hs] at e'
      refine key _ (Micro.Has.done () (K.setSp (by decide) _ _ ?_ (K.emit (by decide) _ _ (printInt_inRange _)
        (K.read _ _ h)))) e'
      rw [emit_sp, cacheRead_sp, toNat_ctrl_add_one (by omega)]; omega
    · have e' : execPrinti s = .next t := e
      unfold execPrinti at e'
      have hl := K.load_sp h
      rw [load_sp_fault (by omega)] at e' hl
      exact key _ hl e'
  | prints =>
    exact key _ ((K.fetchOperand h).andThen fun t _ h =>
      printString_has K.read (K.emit (by decide)) K.raise _ (by omega) h) e
  | pushc => exact key _ ((K.fetchOperand h).andThen fun _ _ h => K.push (by decide) _ h) e
  | pusha =>
    refine key _ ((K.fetchOperand h).andThen fun a _ h => (K.load ?_ (Or.inl ?_) h).andThen fun _ _ h =>
      K.push (by decide) _ h) e
    · have := unsigned_nonneg a; omega
    · have := unsigned_le a; omega
  | pushr =>
    exact key _ ((K.fetchOperand h).andThen fun _ _ h => (K.load_frame _ h).andThen fun _ _ h => K.push (by decide) _ h) e
  | popa =>
    refine key _ ((K.fetchOperand h).andThen fun a _ h => (K.pop (by decide) h).andThen fun _ _ h =>
      K.store (by decide) _ ?_ ?_ h) e
    · have := unsigned_nonneg a; omega
    · have := unsigned_le a; omega
  | popr =>
    exact key _ ((K.fetchOperand h).andThen fun _ _ h => (K.pop (by decide) h).andThen fun _ _ h =>
      K.store (by decide) _ (frameAddr_ge _ _) (frameAddr_le _ _) h) e

/-! ### The step -/

theorem step_running {s : State} (h : s.run = .running) : step s = runStep s := by
  unfold step; rw [h]

/-- Only a running engine has a next state. -/
theorem run_of_step {s t : State} (e : step s = .next t) : s.run = .running := by
  cases hr : s.run with
  | running => rfl
  | halted => unfold step at e; rw [hr] at e; cases e
  | faulted => unfold step at e; rw [hr] at e; cases e

/-- What a step of a running engine is (R70 to R72): the fetch fault, the invalid opcode, or the decoded instruction. -/
theorem runStep_cases (s : State) :
    (65535 < s.pc.toNat ∧ runStep s = .next (raise .addressRange (ctrlInt s.pc) (s.setIaddr s.pc))) ∨
    (s.pc.toNat ≤ 65535 ∧ decode (view s s.pcWord) = none ∧
      runStep s = .next (raise .invalidOpcode (unsigned (view s s.pcWord))
        (((cacheRead s.pcWord s).2.setIaddr s.pc).setPc (s.pc + 1#17)))) ∨
    (∃ i, s.pc.toNat ≤ 65535 ∧ decode (view s s.pcWord) = some i ∧
      runStep s = exec i (((cacheRead s.pcWord s).2.setIaddr s.pc).setPc (s.pc + 1#17))) := by
  by_cases h : 65535 < s.pc.toNat
  · left; refine ⟨h, ?_⟩; unfold runStep; rw [fetchOpcode_fault h]
  · right
    have h' : s.pc.toNat ≤ 65535 := by omega
    cases hd : decode (view s s.pcWord) with
    | none => left; refine ⟨h', rfl, ?_⟩; unfold runStep; rw [fetchOpcode_ok h']; simp [dispatchWord, hd]
    | some i => right; refine ⟨i, h', rfl, ?_⟩; unfold runStep; rw [fetchOpcode_ok h']; simp [dispatchWord, hd]

/-- A property the operations, the address latch and the faults of the fetch and the dispatch keep is kept by every step. -/
theorem step_keeps {P : State → Prop} (K : ∀ i, Kept i P) (hl : ∀ v s, P s → P (s.setIaddr v))
    (hr : ∀ w s, decode w = none → P s → P (raise .invalidOpcode (unsigned w) s)) {s t : State} (h : P s)
    (e : step s = .next t) : P t := by
  rw [step_running (run_of_step e)] at e
  have K0 := K .nop
  have h1 (hp : s.pc.toNat ≤ 65535) : P (((cacheRead s.pcWord s).2.setIaddr s.pc).setPc (s.pc + 1#17)) :=
    K0.setPc _ _ (Or.inr (Or.inl (by rw [setIaddr_pc, cacheRead_pc]; exact ⟨hp, rfl⟩))) (hl _ _ (K0.read _ _ h))
  rcases runStep_cases s with ⟨hp, c⟩ | ⟨hp, hd, c⟩ | ⟨i, hp, -, c⟩
  · rw [c] at e; cases e
    refine K0.raise _ _ _ (Or.inr ⟨rfl, ?_, Or.inr ?_, Or.inr (Or.inl (Int.le_refl _))⟩) (hl _ _ h)
    · have := ctrlInt_nonneg s.pc; omega
    · unfold ctrlInt; omega
  · rw [c] at e; cases e; exact hr _ _ hd (h1 hp)
  · rw [c] at e; exact exec_keeps (K i) (h1 hp) e

end Sys2Proof.Machine
end

