-- ==== Sys2Proof/Laws/PerInstr.lean ====
section
/-! SUPPORT. What holds of every instruction as syntax, one lemma per constructor. -/

namespace Sys2Proof.Laws.OperandMatchesFormat

/-- R61, R63: a well-formed written form of the instruction has an operand Word exactly when the instruction reads one in
some view, and it takes as many Words as the instruction's length says. -/
def Statement (i : Instr) : Prop :=
  ∀ operand : Option Word, AsmInstr.wf ⟨i, operand⟩ = true →
    (operand.isSome = true ↔ i.operandView ≠ .noOperand) ∧ (encode ⟨i, operand⟩).length = i.length

theorem of_z {i : Instr} (hf : i.format = .z) (hv : i.operandView = .noOperand) : Statement i := by
  intro operand h
  cases operand <;> simp_all [AsmInstr.wf, AsmInstr.noStrayOperand, encode, Instr.length]

theorem of_w {i : Instr} (hf : i.format = .w) (hv : i.operandView ≠ .noOperand) : Statement i := by
  intro operand h
  cases operand <;> simp_all [AsmInstr.wf, AsmInstr.hasItsOperand, encode, Instr.length]

theorem halt : Statement .halt := of_z rfl rfl

theorem nop : Statement .nop := of_z rfl rfl

theorem add : Statement .add := of_z rfl rfl

theorem sub : Statement .sub := of_z rfl rfl

theorem mult : Statement .mult := of_z rfl rfl

theorem div : Statement .div := of_z rfl rfl

theorem call : Statement .call := of_w rfl (by decide)

theorem ret : Statement .ret := of_w rfl (by decide)

theorem jmp : Statement .jmp := of_w rfl (by decide)

theorem jeq : Statement .jeq := of_w rfl (by decide)

theorem printi : Statement .printi := of_z rfl rfl

theorem prints : Statement .prints := of_w rfl (by decide)

theorem pushc : Statement .pushc := of_w rfl (by decide)

theorem pusha : Statement .pusha := of_w rfl (by decide)

theorem pushr : Statement .pushr := of_w rfl (by decide)

theorem popa : Statement .popa := of_w rfl (by decide)

theorem popr : Statement .popr := of_w rfl (by decide)

end Sys2Proof.Laws.OperandMatchesFormat
end

