-- ==== Sys2Proof/Laws/View.lean ====
section
/-! SUPPORT. When a cache operation leaves the view of another address alone (20_memory.md R54, R55), from the least that has
to hold of the lines: dirty lines lie where they belong, and a clean line that holds the address agrees with main memory. -/

namespace Sys2Proof.Machine

/-- If `a` is resident in a clean line, main memory holds its Word too. -/
def ViewBacked (s : State) (a : Word) : Prop :=
  (s.line (lineIndex a)).tag = a →
    (s.line (lineIndex a)).dirty = true ∨ (s.line (lineIndex a)).contents = memRead a s

theorem view_resident {s : State} {a : Word} (h : (s.line (lineIndex a)).tag = a) :
    view s a = (s.line (lineIndex a)).contents := if_pos h

theorem view_not_resident {s : State} {a : Word} (h : (s.line (lineIndex a)).tag ≠ a) : view s a = memRead a s := if_neg h

theorem view_congr {s t : State} {a : Word} (hl : t.line (lineIndex a) = s.line (lineIndex a))
    (hm : memRead a t = memRead a s) : view t a = view s a := by
  unfold view; rw [hl, hm]

theorem viewBacked_congr {s t : State} {a : Word} (hl : t.line (lineIndex a) = s.line (lineIndex a))
    (hm : memRead a t = memRead a s) (h : ViewBacked s a) : ViewBacked t a := by
  unfold ViewBacked at *; rw [hl, hm]; exact h

theorem dirtyPlaced_cacheRead {s : State} (h : DirtyPlaced s) (a : Word) : DirtyPlaced (cacheRead a s).2 := by
  intro j
  rw [cacheRead_line]
  split
  · intro e; cases e
  · exact h j

theorem dirtyPlaced_cacheWrite {s : State} (h : DirtyPlaced s) (a v : Word) : DirtyPlaced (cacheWrite a v s) := by
  intro j
  rw [cacheWrite_line]
  split
  · rename_i e; intro _; exact e.symm
  · exact h j

/-- A read leaves the view of every address alone, and the address backed. -/
theorem cacheRead_view {s : State} (hd : DirtyPlaced s) (a : Word) {b : Word} (hb : ViewBacked s b) :
    ViewBacked (cacheRead a s).2 b ∧ view (cacheRead a s).2 b = view s b := by
  by_cases hit : (s.line (lineIndex a)).tag = a
  · rw [cacheRead_hit hit]; exact ⟨hb, rfl⟩
  by_cases hi : lineIndex b = lineIndex a
  · by_cases hab : b = a
    · subst hab
      have hl : (cacheRead b s).2.line (lineIndex b) = ⟨b, memRead b s, false⟩ := by rw [cacheRead_line, if_pos ⟨rfl, hit⟩]
      have hm : memRead b (cacheRead b s).2 = memRead b s := by
        rw [memRead_cacheRead, if_neg fun e => hit e.2.2.symm]
      refine ⟨fun _ => Or.inr (by rw [hl, hm]), ?_⟩
      rw [view_resident (by rw [hl]), hl, view_not_resident hit]
    · have hl : (cacheRead a s).2.line (lineIndex b) = ⟨a, memRead a s, false⟩ := by
        rw [cacheRead_line, if_pos ⟨hi, hi ▸ hit⟩]
      have ht : ((cacheRead a s).2.line (lineIndex b)).tag ≠ b := by rw [hl]; exact fun e => hab e.symm
      refine ⟨fun e => absurd e ht, ?_⟩
      rw [view_not_resident ht, memRead_cacheRead]
      by_cases hr : (s.line (lineIndex b)).tag = b
      · rw [view_resident hr]
        rcases hb hr with h | h
        · rw [if_pos ⟨hit, hi ▸ h, (hi ▸ hr).symm⟩, hi]
        · rw [h]
          split
          · rename_i e; rw [← hi, h]
          · rfl
      · rw [view_not_resident hr, if_neg fun e => hr (by rw [hi]; exact e.2.2.symm)]
  · have hl : (cacheRead a s).2.line (lineIndex b) = s.line (lineIndex b) := by
      rw [cacheRead_line, if_neg fun e => hi e.1]
    have hm : memRead b (cacheRead a s).2 = memRead b s := by
      rw [memRead_cacheRead, if_neg fun e => hi (by rw [e.2.2]; exact hd _ e.2.1)]
    exact ⟨viewBacked_congr hl hm hb, view_congr hl hm⟩

/-- A write leaves the view of every other address alone, and the address backed. -/
theorem cacheWrite_view {s : State} (hd : DirtyPlaced s) (a v : Word) {b : Word} (hab : b ≠ a) (hb : ViewBacked s b) :
    ViewBacked (cacheWrite a v s) b ∧ view (cacheWrite a v s) b = view s b := by
  by_cases hi : lineIndex b = lineIndex a
  · have hl : (cacheWrite a v s).line (lineIndex b) = ⟨a, v, true⟩ := by rw [cacheWrite_line, if_pos hi]
    have ht : ((cacheWrite a v s).line (lineIndex b)).tag ≠ b := by rw [hl]; exact fun e => hab e.symm
    refine ⟨fun e => absurd e ht, ?_⟩
    rw [view_not_resident ht, memRead_cacheWrite]
    by_cases hr : (s.line (lineIndex b)).tag = b
    · have hit : (s.line (lineIndex a)).tag ≠ a := fun e => hab (by rw [← hr, hi, e])
      rw [view_resident hr]
      rcases hb hr with h | h
      · rw [if_pos ⟨hit, hi ▸ h, (hi ▸ hr).symm⟩, hi]
      · rw [h]
        split
        · rename_i e; rw [← hi, h]
        · rfl
    · rw [view_not_resident hr, if_neg fun e => hr (by rw [hi]; exact e.2.2.symm)]
  · have hl : (cacheWrite a v s).line (lineIndex b) = s.line (lineIndex b) := by
      rw [cacheWrite_line, if_neg hi]
    have hm : memRead b (cacheWrite a v s) = memRead b s := by
      rw [memRead_cacheWrite, if_neg fun e => hi (by rw [e.2.2]; exact hd _ e.2.1)]
    exact ⟨viewBacked_congr hl hm hb, view_congr hl hm⟩

/-! ### From the invariants of R54 and R56 -/

theorem CacheInv.butSentinel {s : State} (h : CacheInv s) : CacheInvButSentinel s := fun i => Or.inl (h i)

theorem CacheInvButSentinel.dirtyPlaced {s : State} (h : CacheInvButSentinel s) : DirtyPlaced s := by
  intro i hd
  rcases h i with (⟨h1, -⟩ | ⟨-, -, h3⟩) | ⟨rfl, -, h3⟩
  · exact h1
  · rw [h3] at hd; cases hd
  · rw [h3] at hd; cases hd

/-- Under the invariant of reachable states every address is backed, but 65535 where the boot condition failed (R53). -/
theorem CacheInvButSentinel.viewBacked {s : State} (h : CacheInvButSentinel s) {b : Word}
    (hb : b ≠ 65535#16 ∨ CacheInv s) : ViewBacked s b := by
  intro ht
  have key : lineInv s (lineIndex b) →
      (s.line (lineIndex b)).dirty = true ∨ (s.line (lineIndex b)).contents = memRead b s := by
    rintro (⟨-, h2⟩ | ⟨h1, -⟩)
    · rw [ht] at h2; exact h2
    · rw [ht] at h1; exact absurd rfl h1
  rcases hb with hb | hc
  · rcases h (lineIndex b) with hl | ⟨h1, h2, -⟩
    · exact key hl
    · rw [h1, h2] at ht
      exact absurd ht.symm hb
  · exact key (hc _)

/-- A read keeps the line invariant. -/
theorem cacheInv_cacheRead {s : State} (h : CacheInv s) (a : Word) : CacheInv (cacheRead a s).2 := by
  have hd := h.butSentinel.dirtyPlaced
  intro j
  have hm : ∀ b, memRead b (cacheRead a s).2 = _ := fun b => memRead_cacheRead a b s
  unfold lineInv
  rw [cacheRead_line]
  by_cases hj : j = lineIndex a ∧ (s.line j).tag ≠ a
  · rw [if_pos hj]; left
    refine ⟨hj.1.symm, Or.inr ?_⟩
    show memRead a s = _
    rw [hm, if_neg]; rintro ⟨h1, -, h3⟩; exact h1 h3.symm
  · rw [if_neg hj]
    rcases h j with ⟨h1, h2⟩ | h2
    · left; refine ⟨h1, ?_⟩
      rcases h2 with h2 | h2
      · exact Or.inl h2
      · right; rw [hm, h2]; split
        · rename_i hh; obtain ⟨h3, h4, h5⟩ := hh
          have : j = lineIndex a := by rw [← h1, h5]; exact hd _ h4
          exact absurd ⟨this, by rw [this]; exact h3⟩ hj
        · rfl
    · right; exact h2

/-- A write keeps the line invariant. -/
theorem cacheInv_cacheWrite {s : State} (h : CacheInv s) (a v : Word) : CacheInv (cacheWrite a v s) := by
  have hd := h.butSentinel.dirtyPlaced
  intro j
  have hm : ∀ b, memRead b (cacheWrite a v s) = _ := fun b => memRead_cacheWrite a v b s
  unfold lineInv
  rw [cacheWrite_line]
  by_cases hj : j = lineIndex a
  · rw [if_pos hj]; left
    exact ⟨hj.symm, Or.inl rfl⟩
  · rw [if_neg hj]
    rcases h j with ⟨h1, h2⟩ | h2
    · left; refine ⟨h1, ?_⟩
      rcases h2 with h2 | h2
      · exact Or.inl h2
      · right; rw [hm, h2]; split
        · rename_i hh; obtain ⟨h3, h4, h5⟩ := hh
          have : j = lineIndex a := by rw [← h1, h5]; exact hd _ h4
          exact absurd this hj
        · rfl
    · right; exact h2

/-- A read keeps the invariant of reachable states. -/
theorem butSentinel_cacheRead {s : State} (h : CacheInvButSentinel s) (a : Word) : CacheInvButSentinel (cacheRead a s).2 := by
  have hd := h.dirtyPlaced
  intro j
  have hm : ∀ b, memRead b (cacheRead a s).2 = _ := fun b => memRead_cacheRead a b s
  unfold lineInv sentinelLine
  rw [cacheRead_line]
  by_cases hj : j = lineIndex a ∧ (s.line j).tag ≠ a
  · rw [if_pos hj]; left; left
    refine ⟨hj.1.symm, Or.inr ?_⟩
    show memRead a s = _
    rw [hm, if_neg]; rintro ⟨h1, -, h3⟩; exact h1 h3.symm
  · rw [if_neg hj]
    rcases h j with (⟨h1, h2⟩ | h2) | ⟨rfl, h3⟩
    · left; left; refine ⟨h1, ?_⟩
      rcases h2 with h2 | h2
      · exact Or.inl h2
      · right; rw [hm, h2]; split
        · rename_i hh; obtain ⟨h3, h4, h5⟩ := hh
          have : j = lineIndex a := by rw [← h1, h5]; exact hd _ h4
          exact absurd ⟨this, by rw [this]; exact h3⟩ hj
        · rfl
    · left; right; exact h2
    · right; refine ⟨rfl, ?_⟩; rw [cacheRead_line, if_neg hj]; exact h3

/-- A write keeps the invariant of reachable states. -/
theorem butSentinel_cacheWrite {s : State} (h : CacheInvButSentinel s) (a v : Word) : CacheInvButSentinel (cacheWrite a v s) := by
  have hd := h.dirtyPlaced
  intro j
  have hm : ∀ b, memRead b (cacheWrite a v s) = _ := fun b => memRead_cacheWrite a v b s
  unfold lineInv sentinelLine
  rw [cacheWrite_line]
  by_cases hj : j = lineIndex a
  · rw [if_pos hj]; left; left
    exact ⟨hj.symm, Or.inl rfl⟩
  · rw [if_neg hj]
    rcases h j with (⟨h1, h2⟩ | h2) | ⟨rfl, h3⟩
    · left; left; refine ⟨h1, ?_⟩
      rcases h2 with h2 | h2
      · exact Or.inl h2
      · right; rw [hm, h2]; split
        · rename_i hh; obtain ⟨h3, h4, h5⟩ := hh
          have : j = lineIndex a := by rw [← h1, h5]; exact hd _ h4
          exact absurd this hj
        · rfl
    · left; right; exact h2
    · right; refine ⟨rfl, ?_⟩; rw [cacheWrite_line, if_neg hj]; exact h3

/-! ### The canonical form of main memory -/

theorem wf_memWrite {s : State} (h : s.mem.wf) (a v : Word) : (memWrite a v s).mem.wf := Memory.wf_write h a.isLt v

theorem wf_writeBack {s : State} (h : s.mem.wf) (l : Line) : (writeBack l s).mem.wf := by
  unfold writeBack
  split
  · exact wf_memWrite h _ _
  · exact h

/-- A read keeps the canonical form. -/
theorem wf_cacheRead {s : State} (h : s.mem.wf) (a : Word) : (cacheRead a s).2.mem.wf := by
  by_cases hit : (s.line (lineIndex a)).tag = a
  · rw [cacheRead_hit hit]; exact h
  · rw [cacheRead_miss hit, setLine_mem]; exact wf_writeBack (s := s.countMiss) h _

/-- A write keeps the canonical form. -/
theorem wf_cacheWrite {s : State} (h : s.mem.wf) (a v : Word) : (cacheWrite a v s).mem.wf := by
  by_cases hit : (s.line (lineIndex a)).tag = a
  · rw [cacheWrite_match v hit]; exact h
  · rw [cacheWrite_differ v hit, setLine_mem]; exact wf_writeBack h _

theorem wf_reset : State.reset.mem.wf := Memory.wf_nil

end Sys2Proof.Machine
end

