-- ==== Sys2Proof/Tests/Slice0.lean ====
section
/-! SUPPORT. Tests: the well-formedness checks, a decoding of every instruction, one step of every instruction on a small
state, and a witness for every statement that has hypotheses. Expected values are from spec/95_test_vectors.md (the vector is
named) or computed by hand from the rule named; none is the model's own answer. -/

namespace Sys2Proof.Tests

open Sys2Proof Sys2Proof.Machine

/-! ### Helpers -/

/-- A machine after a reset with an image, the lines' reset contents 0, its registers and some cells then set. -/
def machine (img : List Word) (pc sp : Ctrl) (fp : Word) (cells : Memory) : State :=
  { boot img 0#16 with pc := pc, sp := sp, fp := fp, mem := Memory.ofImage 0 img ++ cells }

/-- What `f` sees of the state after one step, if there is one. -/
def after {α : Type} (s : State) (f : State → α) : Option α :=
  match step s with
  | .next t => some (f t)
  | .fault _ => none
  | .refused _ => none

/-- What `f` sees of the state after an instruction's execution, if there is one. -/
def afterExec {α : Type} (i : Instr) (s : State) (f : State → α) : Option α :=
  match exec i s with
  | .next t => some (f t)
  | .fault _ => none
  | .refused _ => none

/-! ### Well-formedness -/

/-- An ADD written with an operand, and a JMP written without one (R61), are refused; the right forms are accepted. -/
theorem test_wellformed_checks :
    AsmInstr.noStrayOperand ⟨.add, some 5#16⟩ = false ∧ AsmInstr.wf ⟨.add, some 5#16⟩ = false ∧
    AsmInstr.hasItsOperand ⟨.jmp, none⟩ = false ∧ AsmInstr.wf ⟨.jmp, none⟩ = false ∧
    AsmInstr.wf ⟨.add, none⟩ = true ∧ AsmInstr.wf ⟨.jmp, some 65535#16⟩ = true := by decide

/-! ### Decoding (30_encoding.md R61 to R68): the opcode Words written out bit by bit -/

theorem test_decode_arithmetic_words :
    decode 0b0000000000000010#16 = some .add ∧ decode 0b0000000000000011#16 = some .sub ∧
    decode 0b0000000000000100#16 = some .mult ∧ decode 0b0000000000000101#16 = some .div := by decide

theorem test_decode_control_words :
    decode 0b0000000000000000#16 = some .halt ∧ decode 0b0000000000000001#16 = some .nop ∧
    decode 0b0000000000000110#16 = some .call ∧ decode 0b0000000000000111#16 = some .ret ∧
    decode 0b0000000000001000#16 = some .jmp ∧ decode 0b0000000000001001#16 = some .jeq := by decide

theorem test_decode_output_words :
    decode 0b0000000000001010#16 = some .printi ∧ decode 0b0000000000001011#16 = some .prints := by decide

theorem test_decode_move_words :
    decode 0b0000000000001100#16 = some .pushc ∧ decode 0b0000000000001101#16 = some .pusha ∧
    decode 0b0000000000001110#16 = some .pushr ∧ decode 0b0000000000001111#16 = some .popa ∧
    decode 0b0000000000010000#16 = some .popr := by decide

/-- V-F1, V-F2, R64: 17, 0xFFFF, and an opcode number with a high bit set are no instructions. -/
theorem test_decode_refuses :
    decode 17#16 = none ∧ decode 65535#16 = none ∧ decode 0b1000000000000010#16 = none ∧
    decode 0b0000000000100000#16 = none := by decide

/-- The opcode Word is word 0, bits 15..0 of the table's number; the operand Word is bits 31..16. -/
theorem test_decode_table_word :
    decodeTableWord 16 5 = some .div ∧ decodeTableWord 32 (7 * 65536 + 12) = some .pushc ∧
    decodeTableWord 16 11 = some .prints ∧ decodeTableWord 16 17 = none ∧
    decodeTableWord 16 (65536 + 17) = none := by decide

/-- P3's image, and P6's: an operand is the Word after the opcode, a negative one its `wrap16` (R67). -/
theorem test_encode_programs :
    encodeProgram [asmOp .call 3, asm .halt, asmOp .pushc 42, asmOp .ret 0] = [6#16, 3#16, 0#16, 12#16, 42#16, 7#16, 0#16] ∧
    encodeProgram [asmOp .pushc (-3), asm .printi] = [12#16, 65533#16, 10#16] ∧
    decodeProgram [12#16, 65533#16, 10#16] = some [asmOp .pushc (-3), asm .printi] ∧
    decodeProgram [12#16] = none := by decide

/-- `withFetchWord` places the table's number where the next step fetches: PUSHC 99 from reset (P1's step 1). -/
theorem test_with_fetch_word :
    after (State.reset.withFetchWord 32 (99 * 65536 + 12)) (fun t => (t.pc, t.sp, view t 65535#16)) =
      some (2#17, 65535#17, 99#16) := by decide

/-! ### One step of each instruction -/

/-- V-H2: HALT on an empty stack. -/
theorem test_halt_empty_stack :
    after (boot [] 0#16) (fun t => (t.run, t.fault, t.pc, t.counters, t.result)) =
      some (.faulted, some ⟨.addressRange, 65536, 0#17⟩, 1#17, ⟨1, 0, 0, 1⟩, none) := by decide

/-- R76: the top of stack is the result; the read is counted, `SP` stays. -/
theorem test_halt_result :
    after (machine [0#16] 0#17 100#17 0#16 [(100, 99#16)]) (fun t => (t.run, t.result, t.sp, t.counters)) =
      some (.halted, some 99#16, 100#17, ⟨2, 0, 0, 2⟩) := by decide

/-- V-H1's first step. -/
theorem test_nop :
    after (boot [1#16, 1#16] 0#16) (fun t => (t.run, t.pc, t.sp, t.counters)) =
      some (.running, 1#17, 65536#17, ⟨1, 0, 0, 1⟩) := by decide

/-- V-A3: 32767 + 1 wraps. -/
theorem test_add_wraps :
    after (machine [2#16] 0#17 100#17 0#16 [(100, 1#16), (101, 32767#16)]) (fun t => (t.pc, t.sp, view t 101#16, view t 100#16)) =
      some (1#17, 101#17, 32768#16, 1#16) := by decide

/-- V-A9: ADD on an empty stack. -/
theorem test_add_empty_stack :
    after (boot [2#16] 0#16) (fun t => (t.fault, t.pc, t.sp, t.counters)) =
      some (some ⟨.addressRange, 65536, 0#17⟩, 1#17, 65536#17, ⟨1, 0, 0, 1⟩) := by decide

/-- V-A2: 3 pushed, then 7; 3 - 7. -/
theorem test_sub_order :
    after (machine [3#16] 0#17 100#17 0#16 [(100, 7#16), (101, 3#16)]) (fun t => (t.sp, view t 101#16)) =
      some (101#17, 65532#16) := by decide

/-- V-A4: 300 * 300. -/
theorem test_mult_wraps :
    after (machine [4#16] 0#17 100#17 0#16 [(100, 300#16), (101, 300#16)]) (fun t => (t.sp, view t 101#16)) =
      some (101#17, 24464#16) := by decide

/-- V-A5, V-A6: -7 / 2 is -3, and -32768 / -1 wraps. -/
theorem test_div_rounds_and_wraps :
    after (machine [5#16] 0#17 100#17 0#16 [(100, 2#16), (101, 65529#16)]) (fun t => view t 101#16) = some 65533#16 ∧
    after (machine [5#16] 0#17 100#17 0#16 [(100, 65535#16), (101, 32768#16)]) (fun t => view t 101#16) = some 32768#16 := by
  decide

/-- V-A7's fault: both Words popped, nothing pushed. -/
theorem test_div_by_zero :
    after (machine [1#16, 5#16] 1#17 100#17 0#16 [(101, 5#16)]) (fun t => (t.run, t.fault, t.pc, t.sp, view t 101#16)) =
      some (.faulted, some ⟨.divideByZero, 0, 1#17⟩, 2#17, 102#17, 5#16) := by decide

/-- P3's step 1. -/
theorem test_call :
    after (boot [6#16, 3#16, 0#16, 12#16, 42#16, 7#16, 0#16] 0#16)
        (fun t => (t.pc, t.sp, t.fp, t.counters, view t 65535#16, view t 65534#16)) =
      some (3#17, 65534#17, 65534#16, ⟨2, 0, 0, 2⟩, 2#16, 0#16) := by decide

/-- V-T8: CALL with one free stack cell. -/
theorem test_call_one_free_cell :
    after (machine [6#16, 9#16] 0#17 1#17 0#16 []) (fun t => (t.fault, t.pc, t.sp, t.fp, t.counters, t.line 0)) =
      some (some ⟨.addressRange, -1, 0#17⟩, 2#17, 0#17, 0#16, ⟨2, 0, 0, 2⟩, ⟨0#16, 2#16, true⟩) := by decide

/-- V-T4's RETURN 1, its frame at 101: the return address is read before its cell is overwritten. -/
theorem test_return_offset_one :
    after (machine [7#16, 1#16] 0#17 100#17 101#16 [(100, 42#16), (102, 2#16)]) (fun t => (t.pc, t.sp, t.fp, view t 102#16)) =
      some (2#17, 102#17, 0#16, 42#16) := by decide

/-- V-F6's fault: the store is below address 0, and no register has been assigned. -/
theorem test_return_below_memory :
    after (machine [7#16, 65535#16] 0#17 100#17 0#16 [(100, 5#16)]) (fun t => (t.fault, t.pc, t.sp, t.fp)) =
      some (some ⟨.addressRange, -1, 0#17⟩, 2#17, 100#17, 0#16) := by decide

/-- V-T1's step 1. -/
theorem test_jmp :
    after (boot [8#16, 4#16, 17#16] 0#16) (fun t => (t.run, t.pc, t.sp, t.counters)) =
      some (.running, 4#17, 65536#17, ⟨2, 0, 0, 2⟩) := by decide

/-- V-T2's JEQ: the Word is 0, the operand is read. -/
theorem test_jeq_taken :
    after (machine [9#16, 6#16] 0#17 100#17 0#16 []) (fun t => (t.pc, t.sp, t.counters)) =
      some (6#17, 101#17, ⟨3, 0, 0, 3⟩) := by decide

/-- V-T3's JEQ: the Word is 5, the operand is not read. -/
theorem test_jeq_not_taken :
    after (machine [9#16, 6#16] 0#17 100#17 0#16 [(100, 5#16)]) (fun t => (t.pc, t.sp, t.counters, decide (resident t 1#16))) =
      some (2#17, 101#17, ⟨2, 0, 0, 2⟩, false) := by decide

/-- V-O1's PRINTI; the bytes of its text are ASCII's (log 18). -/
theorem test_printi_negative :
    after (machine [10#16] 0#17 100#17 0#16 [(100, 65533#16)]) (fun t => (t.out, renderOut t.out, t.sp)) =
      some ([.printInt (-3)], [45, 51], 101#17) := by decide

/-- V-O6: PRINTI on an empty stack. -/
theorem test_printi_empty_stack :
    after (boot [10#16] 0#16) (fun t => (t.fault, t.out, t.sp, t.counters)) =
      some (some ⟨.addressRange, 65536, 0#17⟩, [], 65536#17, ⟨1, 0, 0, 1⟩) := by decide

/-- P4's step 1: Hello. -/
theorem test_prints_hello :
    after (boot [11#16, 5#16, 12#16, 0#16, 0#16, 25928#16, 27756#16, 111#16] 0#16) (fun t => (t.pc, t.counters, t.out)) =
      some (2#17, ⟨5, 0, 0, 5⟩, [.printChar 72, .printChar 101, .printChar 108, .printChar 108, .printChar 111]) := by decide

/-- V-O5: a string that runs off the end of memory, read from the sentinel line. -/
theorem test_prints_off_the_end :
    after { boot [11#16, 65535#16] 0x4242#16 with mem := Memory.ofImage 0 [11#16, 65535#16] ++ [(65535, 0x4141#16)] }
        (fun t => (t.fault, t.out, t.pc, t.counters)) =
      some (some ⟨.addressRange, 65536, 0#17⟩, [.printChar 66, .printChar 66], 2#17, ⟨2, 0, 1, 2⟩) := by decide

/-- P1's step 1; the pushed Word is in the cache only. -/
theorem test_pushc :
    after (boot [12#16, 99#16, 0#16] 0#16) (fun t => (t.pc, t.sp, t.counters, t.line 31, t.mem.read 65535)) =
      some (2#17, 65535#17, ⟨2, 0, 0, 2⟩, ⟨65535#16, 99#16, true⟩, 0#16) := by decide

/-- V-S7: a push at `SP = 0`. -/
theorem test_pushc_full_stack :
    after (machine [12#16, 5#16] 0#17 0#17 0#16 []) (fun t => (t.fault, t.pc, t.sp, t.counters)) =
      some (some ⟨.addressRange, -1, 0#17⟩, 2#17, 0#17, ⟨2, 0, 0, 2⟩) := by decide

/-- V-S6's step 1: PUSHA 65535 at reset pushes the lines' reset contents. -/
theorem test_pusha_sentinel :
    after { boot [13#16, 65535#16] 0x5555#16 with mem := Memory.ofImage 0 [13#16, 65535#16] ++ [(65535, 0xAAAA#16)] }
        (fun t => (t.sp, t.line 31, t.counters)) =
      some (65535#17, ⟨65535#16, 0x5555#16, true⟩, ⟨2, 0, 1, 2⟩) := by decide

/-- P6's step 4, its frame at 104: PUSHR 2 reads `FP + 2`. -/
theorem test_pushr :
    after (machine [14#16, 2#16] 0#17 104#17 104#16 [(106, 12#16)]) (fun t => (t.pc, t.sp, t.fp, view t 103#16)) =
      some (2#17, 103#17, 104#16, 12#16) := by decide

/-- V-S8: PUSHR below address 0. -/
theorem test_pushr_below_memory :
    after (boot [14#16, 65535#16] 0#16) (fun t => (t.fault, t.pc, t.sp, t.counters)) =
      some (some ⟨.addressRange, -1, 0#17⟩, 2#17, 65536#17, ⟨2, 0, 0, 2⟩) := by decide

/-- V-S5's POPA: the Word 0 replaces the NOP at 6, in the cache only. -/
theorem test_popa :
    after (machine [15#16, 6#16, 1#16, 1#16, 1#16, 1#16, 1#16] 0#17 100#17 0#16 []) (fun t => (t.sp, t.line 6, t.mem.read 6)) =
      some (101#17, ⟨6#16, 0#16, true⟩, 1#16) := by decide

/-- V-S4's POPR -1, its frame at 102: the local at `FP - 1`. -/
theorem test_popr_local :
    after (machine [16#16, 65535#16] 0#17 100#17 102#16 [(100, 6#16)]) (fun t => (t.pc, t.sp, t.fp, view t 101#16)) =
      some (2#17, 101#17, 102#16, 6#16) := by decide

/-- V-F5's POPR: the Word is popped and lost. -/
theorem test_popr_below_memory :
    after (machine [16#16, 65535#16] 0#17 100#17 0#16 [(100, 9#16)]) (fun t => (t.fault, t.pc, t.sp)) =
      some (some ⟨.addressRange, -1, 0#17⟩, 2#17, 101#17) := by decide

/-- V-F2's second step: an invalid opcode. -/
theorem test_invalid_opcode :
    after (machine [1#16, 65535#16] 1#17 65536#17 0#16 []) (fun t => (t.run, t.fault, t.pc, t.sp)) =
      some (.faulted, some ⟨.invalidOpcode, 65535, 1#17⟩, 2#17, 65536#17) := by decide

/-- V-T5's last step: a fetch at 65537. -/
theorem test_fetch_beyond_memory :
    after (machine [] 65537#17 65535#17 0#16 []) (fun t => (t.fault, t.pc, t.counters)) =
      some (some ⟨.addressRange, 65537, 65537#17⟩, 65537#17, ⟨0, 0, 0, 0⟩) := by decide

/-! ### The cache controller -/

/-- V-C1's third row: the one call that changes three counters. -/
theorem test_cache_read_miss_dirty :
    let s := { boot [] 0#16 with
      mem := [(5, 111#16)], memWrites := 1, cache := (boot [] 0#16).cache.set 5 ⟨37#16, 222#16, true⟩ (by decide) }
    ((cacheRead 5#16 s).1, (cacheRead 5#16 s).2.counters, (cacheRead 5#16 s).2.line 5, (cacheRead 5#16 s).2.mem) =
      (111#16, ⟨1, 2, 0, 1⟩, ⟨5#16, 111#16, false⟩, [(5, 111#16), (37, 222#16)]) := by decide

/-- V-C6: the first write to 65535 finds the sentinel tag. -/
theorem test_cache_write_sentinel :
    let s := cacheWrite 65535#16 9#16 { boot [] 0x5555#16 with mem := [(65535, 0xAAAA#16)] }
    (s.counters, s.line 31, s.mem) = (⟨0, 0, 0, 0⟩, ⟨65535#16, 9#16, true⟩, [(65535, 0xAAAA#16)]) := by decide

/-- R142: bytes come low first; an odd one out is no Word (log 6). -/
theorem test_image_of_bytes :
    imageOfBytes [0x48#8, 0x65#8, 0x6c#8, 0x6c#8] = some [25928#16, 27756#16] ∧ imageOfBytes [1#8, 2#8, 3#8] = none := by decide

/-- R144: the exit value is `signed(RESULT)`; a fault leaves none. -/
theorem test_run_end :
    runEnd { boot [] 0#16 with run := .halted, result := some 65532#16 } = some (.normal (-4) [] ⟨0, 0, 0, 0⟩) ∧
    runEnd (boot [] 0#16) = none ∧
    runEnd (raise .divideByZero 0 (boot [] 0#16)) = some (.fault ⟨.divideByZero, 0, 0#17⟩ [] ⟨0, 0, 0, 0⟩) := by decide

/-- Writing 0 removes the entry, so that equal memories are equal data (log 3). -/
theorem test_memory_canonical :
    Memory.write [(3, 5#16), (7, 1#16)] 3 0#16 = [(7, 1#16)] ∧ Memory.write [(7, 1#16)] 3 2#16 = [(3, 2#16), (7, 1#16)] ∧
    State.reset.mem.wf := by decide

/-! ### Witnesses: a state and operands that meet the hypotheses of each statement, clause by clause -/

/-- The state after an instruction's execution. -/
def execState (i : Instr) (s : State) : State :=
  match exec i s with
  | .next t => t
  | .fault _ => s
  | .refused _ => s

/-- The state after one step. -/
def stepState (s : State) : State :=
  match step s with
  | .next t => t
  | .fault _ => s
  | .refused _ => s

theorem exec_execState (i : Instr) (s : State) : exec i s = .next (execState i s) := by
  obtain ⟨t, h⟩ := exec_next i s
  unfold execState
  rw [h]

theorem step_stepState {s : State} (h : s.run = .running) : step s = .next (stepState s) := by
  have key : ∃ t, step s = .next t := by
    rw [step_running h]
    rcases runStep_cases s with ⟨-, e⟩ | ⟨-, -, e⟩ | ⟨i, -, -, e⟩
    · exact ⟨_, e⟩
    · exact ⟨_, e⟩
    · rw [e]; exact exec_next _ _
  obtain ⟨t, h⟩ := key
  unfold stepState
  rw [h]

/-- A running machine after a fetch: only the registers matter. -/
def regs (pc sp : Ctrl) (fp : Word) : State := machine [] pc sp fp []

theorem witness_DecodeOfEncodeInstr :
    AsmInstr.wf ⟨.pushr, some 65535#16⟩ = true ∧
      decodeInstr (encode ⟨.pushr, some 65535#16⟩ ++ [17#16]) = some (⟨.pushr, some 65535#16⟩, [17#16]) ∧
    AsmInstr.wf ⟨.pushr, none⟩ = false ∧ decodeInstr (encode ⟨.pushr, none⟩ ++ []) = none ∧
    AsmInstr.wf ⟨.add, some 17#16⟩ = false ∧
      decodeInstr (encode ⟨.add, some 17#16⟩ ++ []) ≠ some (⟨.add, some 17#16⟩, []) := by decide

theorem witness_DecodeOfEncodeProgram : ∀ a ∈ [asmOp .popr (-1), asm .div, asmOp .jeq 65535], a.wf = true := by decide

theorem witness_EncodeOfDecodeProgram :
    decodeProgram [16#16, 65535#16, 5#16, 9#16, 65535#16] = some [asmOp .popr (-1), asm .div, asmOp .jeq 65535] := by decide

theorem witness_StepRunsDecodedInstruction :
    let s := machine [12#16, 7#16] 0#17 65536#17 0#16 []
    let e := { boot [] 16#16 with pc := 65535#17 }
    (s.run = .running ∧ s.pc.toNat ≤ 65535 ∧ decode (view s s.pcWord) = some .pushc) ∧
    (e.run = .running ∧ e.pc.toNat ≤ 65535 ∧ decode (view e e.pcWord) = some .popr) := by decide

theorem witness_FetchBeyondMemoryFaults :
    ((regs 65536#17 0#17 0#16).run = .running ∧ 65535 < (regs 65536#17 0#17 0#16).pc.toNat) ∧
    65535 < (regs 65537#17 0#17 0#16).pc.toNat := by decide

theorem witness_InvalidOpcodeRaisedAtDispatchOnly :
    let s := machine [17#16] 0#17 65536#17 0#16 []
    let e := { boot [] 65535#16 with pc := 65535#17 }
    let d := machine [] 0#17 100#17 0#16 [(101, 17#16)]
    (s.run = .running ∧ s.pc.toNat ≤ 65535 ∧ 17 ≤ (view s s.pcWord).toNat) ∧
    (e.run = .running ∧ e.pc.toNat ≤ 65535 ∧ 17 ≤ (view e e.pcWord).toNat) ∧
    (exec .div d = .next (execState .div d) ∧ (execState .div d).fault = some ⟨.divideByZero, 0, 0#17⟩ ∧ d.fault = none) :=
  ⟨by decide, by decide, exec_execState _ _, by decide, by decide⟩

theorem witness_StoppedEngineTakesNoStep :
    (execState .halt (regs 0#17 100#17 0#16)).run = .halted ∧ (execState .halt (regs 0#17 65536#17 0#16)).run = .faulted := by
  decide

theorem witness_RunningStepEndsInThreeWays :
    let s := machine [1#16] 0#17 65536#17 0#16 []
    s.run = .running ∧ s.result = none ∧ s.fault = none ∧ (stepState s).run = .running ∧
    (stepState (regs 0#17 100#17 0#16)).run = .halted ∧ (stepState (regs 0#17 65536#17 0#16)).run = .faulted := by decide

theorem witness_NopOnlyFetches :
    let s := machine [1#16] 0#17 65536#17 0#16 []
    s.run = .running ∧ s.pc.toNat ≤ 65535 ∧ view s s.pcWord = 1#16 := by decide

theorem witness_HaltReadsResult :
    (regs 0#17 65535#17 0#16).sp.toNat ≤ 65535 ∧ 65535 < (regs 0#17 65536#17 0#16).sp.toNat := by decide

theorem witness_AddSubMultResult :
    (regs 0#17 65534#17 0#16).sp.toNat ≤ 65534 ∧ (regs 0#17 0#17 0#16).sp.toNat ≤ 65534 := by decide

theorem witness_ArithmeticStackFaults :
    Instr.div ∈ [Instr.add, .sub, .mult, .div] ∧ 65535 < (regs 0#17 65536#17 0#16).sp.toNat ∧
    (regs 0#17 65535#17 0#16).sp.toNat = 65535 := by decide

theorem witness_DivResult :
    let s := machine [] 0#17 65534#17 0#16 [(65534, 65535#16)]
    s.sp.toNat ≤ 65534 ∧ view s s.spWord ≠ 0#16 := by decide

theorem witness_DivByZeroFaults :
    let s := regs 0#17 65534#17 0#16
    s.sp.toNat ≤ 65534 ∧ view s s.spWord = 0#16 := by decide

theorem witness_DivRoundsTowardZero :
    (65535#16 ≠ 0#16 ∧ signed 32768#16 = -32768 ∧ signed 65535#16 = -1) ∧ (2#16 ≠ 0#16 ∧ signed 65529#16 = -7) := by decide

theorem witness_JmpAssignsPc :
    (regs 65535#17 0#17 0#16).pc.toNat ≤ 65535 ∧ 65535 < (regs 65536#17 0#17 0#16).pc.toNat := by decide

theorem witness_JeqPopsThenBranches :
    let z := regs 65535#17 65535#17 0#16
    let n := machine [] 65536#17 100#17 0#16 [(100, 1#16)]
    let e := regs 0#17 65536#17 0#16
    let f := regs 65536#17 65535#17 0#16
    (z.sp.toNat ≤ 65535 ∧ view z z.spWord = 0#16 ∧ z.pc.toNat ≤ 65535) ∧
    (n.sp.toNat ≤ 65535 ∧ view n n.spWord ≠ 0#16) ∧
    65535 < e.sp.toNat ∧
    (f.sp.toNat ≤ 65535 ∧ view f f.spWord = 0#16 ∧ 65535 < f.pc.toNat) := by decide

theorem witness_CallPushesFrame :
    let s := regs 65534#17 2#17 0#16
    let e := regs 1#17 65536#17 0#16
    (s.pc.toNat ≤ 65534 ∧ 2 ≤ s.sp.toNat ∧ s.sp.toNat ≤ 65536) ∧
    (e.pc.toNat ≤ 65534 ∧ 2 ≤ e.sp.toNat ∧ e.sp.toNat ≤ 65536) := by decide

theorem witness_CallFaults :
    65535 < (regs 65536#17 0#17 0#16).pc.toNat ∧ (regs 65535#17 0#17 0#16).pc.toNat = 65535 ∧
    ((regs 65534#17 0#17 0#16).pc.toNat ≤ 65534 ∧ (regs 65534#17 0#17 0#16).sp.toNat = 0) ∧
    ((regs 65534#17 1#17 0#16).pc.toNat ≤ 65534 ∧ (regs 65534#17 1#17 0#16).sp.toNat = 1) := by decide

/-- Operands 0, 1, -1 and 2 at `FP` 0, 65534, 0 and 65534: the effective addresses 0, 65535, -1 and 65536. -/
theorem witness_ReturnRestoresFrame :
    let s := regs 65535#17 65535#17 0#16
    let h := machine [1#16] 0#17 65535#17 65534#16 []
    let l := machine [65535#16] 0#17 65535#17 0#16 []
    let b := machine [2#16] 0#17 65535#17 65534#16 []
    (s.pc.toNat ≤ 65535 ∧ s.sp.toNat ≤ 65535 ∧ s.fp.toNat ≤ 65534 ∧ frameAddr s.fp (view s s.pcWord) = 0) ∧
    (h.pc.toNat ≤ 65535 ∧ h.sp.toNat ≤ 65535 ∧ h.fp.toNat ≤ 65534 ∧ frameAddr h.fp (view h h.pcWord) = 65535) ∧
    (l.pc.toNat ≤ 65535 ∧ l.sp.toNat ≤ 65535 ∧ l.fp.toNat ≤ 65534 ∧ frameAddr l.fp (view l l.pcWord) = -1) ∧
    (b.pc.toNat ≤ 65535 ∧ b.sp.toNat ≤ 65535 ∧ b.fp.toNat ≤ 65534 ∧ frameAddr b.fp (view b b.pcWord) = 65536) := by decide

theorem witness_ReturnEarlyFaults :
    65535 < (regs 65536#17 0#17 0#16).pc.toNat ∧
    ((regs 65535#17 65536#17 0#16).pc.toNat ≤ 65535 ∧ 65535 < (regs 65535#17 65536#17 0#16).sp.toNat) ∧
    ((regs 65535#17 65535#17 65535#16).pc.toNat ≤ 65535 ∧ (regs 65535#17 65535#17 65535#16).sp.toNat ≤ 65535 ∧
      (regs 65535#17 65535#17 65535#16).fp = 65535#16) := by decide

/-- A CALL at 0, and the RETURN 1 of the subroutine that pushed 42 (P3's frame, its cells at 98 to 100). -/
theorem witness_ReturnUndoesCall :
    let s := machine [6#16, 3#16] 1#17 100#17 7#16 []
    let t := execState .call s
    let u := { machine [1#16] 0#17 97#17 98#16 [(97, 42#16), (98, 7#16), (99, 2#16)] with run := .running }
    (s.run = .running ∧ exec .call s = .next t ∧ t.run = .running) ∧
    (CacheInv u ∧ u.run = .running ∧ u.fp = t.fp ∧ view u u.fp = s.fp ∧ view u (u.fp + 1#16) = s.pcWord + 1#16 ∧
      exec .ret u = .next (execState .ret u) ∧ (execState .ret u).run = .running) :=
  ⟨⟨rfl, exec_execState _ _, by decide⟩, by decide, rfl, by decide, by decide, by decide, exec_execState _ _, by decide⟩

theorem witness_PrintiEmitsThenPops :
    (regs 0#17 65535#17 0#16).sp.toNat ≤ 65535 ∧ 65535 < (regs 0#17 65536#17 0#16).sp.toNat := by decide

/-- A string of two Words, the second with a zero high byte, that ends at 65535; the last Word is the sentinel line's. -/
theorem witness_PrintsEmitsString :
    let s := { boot [] 0x41#16 with mem := [(0, 65534#16), (65534, 0x4344#16)] }
    let p := view s s.pcWord
    let reads (j : Nat) : List Access := .read s.pcWord :: readsFrom p j
    let w (j : Nat) : Word := view (transact (reads j) s) (p + BitVec.ofNat 16 j)
    s.pc.toNat ≤ 65535 ∧ p.toNat + 1 ≤ 65535 ∧
    (∀ j < 1, lowByte (w j) ≠ 0#8 ∧ highByte (w j) ≠ 0#8) ∧ (lowByte (w 1) = 0#8 ∨ highByte (w 1) = 0#8) := by decide

/-- V-O5: the string starts at 65535, and that Word has no zero byte. -/
theorem witness_PrintsFaults :
    let s := { boot [11#16, 65535#16] 0x4242#16 with pc := 1#17 }
    let p := view s s.pcWord
    let n := 65536 - p.toNat
    let reads (j : Nat) : List Access := .read s.pcWord :: readsFrom p j
    let w (j : Nat) : Word := view (transact (reads j) s) (p + BitVec.ofNat 16 j)
    65535 < (regs 65536#17 0#17 0#16).pc.toNat ∧
    s.pc.toNat ≤ 65535 ∧ (∀ j < n, lowByte (w j) ≠ 0#8 ∧ highByte (w j) ≠ 0#8) := by decide

/-- The clauses of PUSHC, PUSHA, POPA: the operand there or not, the stack with a free cell, full, empty. -/
theorem witness_PushcPushesOperand :
    ((regs 65535#17 1#17 0#16).pc.toNat ≤ 65535 ∧ 1 ≤ (regs 65535#17 1#17 0#16).sp.toNat ∧
      (regs 65535#17 1#17 0#16).sp.toNat ≤ 65536) ∧
    (regs 65535#17 65536#17 0#16).sp.toNat ≤ 65536 ∧
    65535 < (regs 65536#17 0#17 0#16).pc.toNat ∧
    ((regs 65535#17 0#17 0#16).pc.toNat ≤ 65535 ∧ (regs 65535#17 0#17 0#16).sp.toNat = 0) := by decide

theorem witness_PushaPushesCell :
    ((regs 65535#17 1#17 0#16).pc.toNat ≤ 65535 ∧ 1 ≤ (regs 65535#17 1#17 0#16).sp.toNat ∧
      (regs 65535#17 1#17 0#16).sp.toNat ≤ 65536) ∧
    ((regs 65535#17 0#17 0#16).pc.toNat ≤ 65535 ∧ (regs 65535#17 0#17 0#16).sp.toNat = 0) ∧
    65535 < (regs 65536#17 0#17 0#16).pc.toNat := by decide

theorem witness_PushrPushesFrameCell :
    let s := regs 65535#17 1#17 0#16
    let h := machine [1#16] 0#17 65536#17 65534#16 []
    let l := machine [65535#16] 0#17 1#17 0#16 []
    let b := machine [2#16] 0#17 1#17 65534#16 []
    let z := regs 65535#17 0#17 65535#16
    (s.pc.toNat ≤ 65535 ∧ frameAddr s.fp (view s s.pcWord) = 0 ∧ 1 ≤ s.sp.toNat ∧ s.sp.toNat ≤ 65536) ∧
    (h.pc.toNat ≤ 65535 ∧ frameAddr h.fp (view h h.pcWord) = 65535 ∧ 1 ≤ h.sp.toNat ∧ h.sp.toNat ≤ 65536) ∧
    (l.pc.toNat ≤ 65535 ∧ frameAddr l.fp (view l l.pcWord) = -1) ∧
    (b.pc.toNat ≤ 65535 ∧ frameAddr b.fp (view b b.pcWord) = 65536) ∧
    (z.pc.toNat ≤ 65535 ∧ frameAddr z.fp (view z z.pcWord) = 65535 ∧ z.sp.toNat = 0) ∧
    65535 < (regs 65536#17 0#17 0#16).pc.toNat := by decide

theorem witness_PopaStoresTop :
    ((regs 65535#17 65535#17 0#16).pc.toNat ≤ 65535 ∧ (regs 65535#17 65535#17 0#16).sp.toNat ≤ 65535) ∧
    ((regs 65535#17 65536#17 0#16).pc.toNat ≤ 65535 ∧ 65535 < (regs 65535#17 65536#17 0#16).sp.toNat) ∧
    65535 < (regs 65536#17 0#17 0#16).pc.toNat := by decide

theorem witness_PoprStoresTopInFrame :
    let s := regs 65535#17 65535#17 0#16
    let h := machine [1#16] 0#17 65535#17 65534#16 []
    let l := machine [65535#16] 0#17 65535#17 0#16 []
    let b := machine [2#16] 0#17 65535#17 65534#16 []
    let e := regs 65535#17 65536#17 0#16
    (s.pc.toNat ≤ 65535 ∧ s.sp.toNat ≤ 65535 ∧ frameAddr s.fp (view s s.pcWord) = 0) ∧
    (h.pc.toNat ≤ 65535 ∧ h.sp.toNat ≤ 65535 ∧ frameAddr h.fp (view h h.pcWord) = 65535) ∧
    (l.pc.toNat ≤ 65535 ∧ l.sp.toNat ≤ 65535 ∧ frameAddr l.fp (view l l.pcWord) = -1) ∧
    (b.pc.toNat ≤ 65535 ∧ b.sp.toNat ≤ 65535 ∧ frameAddr b.fp (view b b.pcWord) = 65536) ∧
    (e.pc.toNat ≤ 65535 ∧ 65535 < e.sp.toNat) ∧
    65535 < (regs 65536#17 0#17 0#16).pc.toNat := by decide

/-- PUSHA 50 in a state where 50 holds 9, then POPA 50 in the state it left, the operand again at `PC`. -/
theorem witness_PushaThenPopaKeepsCell :
    let s := machine [50#16] 0#17 100#17 0#16 [(50, 9#16)]
    let t := execState .pusha s
    let u := t.setPc 0#17
    (CacheInv s ∧ CacheInv u ∧ s.run = .running ∧ u.run = .running ∧ exec .pusha s = .next t ∧ t.run = .running) ∧
    (u.sp = t.sp ∧ (∀ a, view u a = view t a) ∧ view u u.pcWord = view s s.pcWord ∧
      exec .popa u = .next (execState .popa u) ∧ (execState .popa u).run = .running) :=
  ⟨⟨by decide, by decide, rfl, by decide, exec_execState _ _, by decide⟩, rfl, fun _ => rfl, by decide, exec_execState _ _,
    by decide⟩

theorem witness_RegisterFrame :
    exec .prints (regs 0#17 100#17 0#16) = .next (execState .prints (regs 0#17 100#17 0#16)) ∧
    Instr.prints ∉ [Instr.call, .ret] ∧ Instr.prints ∈ [Instr.halt, .nop, .jmp, .prints] ∧ Instr.prints ≠ .halt ∧
    Instr.pushc ∉ [Instr.printi, .prints] :=
  ⟨exec_execState _ _, by decide⟩

/-- A CALL that completes, and one whose second push faults; 65535 too, under the line invariant. -/
theorem witness_MemoryFrame :
    let s := machine [6#16, 9#16] 1#17 100#17 0#16 []
    let f := machine [6#16, 9#16] 1#17 1#17 0#16 []
    (CacheInvButSentinel s ∧ CacheInv s ∧ s.run = .running ∧ exec .call s = .next (execState .call s)) ∧
    ((execState .call s).run ≠ .faulted ∧ 65535#16 ∉ storedAddrs .call s) ∧
    (CacheInvButSentinel f ∧ f.run = .running ∧ exec .call f = .next (execState .call f)) ∧
    ((execState .call f).run = .faulted ∧ 5#16 ≠ f.spWord - 1#16) :=
  ⟨⟨by decide, by decide, rfl, exec_execState _ _⟩, by decide, ⟨by decide, rfl, exec_execState _ _⟩, by decide⟩

/-- A machine whose line 5 holds address 37, dirty. -/
def dirty37 : State := cacheWrite 37#16 222#16 (boot [] 0#16)

theorem witness_cache_operations :
    (dirty37.line (lineIndex 37#16)).tag = 37#16 ∧ (dirty37.line (lineIndex 5#16)).tag ≠ 5#16 ∧
    (dirty37.line (lineIndex 5#16)).dirty = true ∧ (dirty37.line (lineIndex 6#16)).tag ≠ 6#16 ∧
    (dirty37.line (lineIndex 6#16)).dirty = false := by decide

theorem witness_ReadHitReturnsContents : (dirty37.line (lineIndex 37#16)).tag = 37#16 := by decide

theorem witness_ReadMissWritesBackThenFills : (dirty37.line (lineIndex 5#16)).tag ≠ 5#16 := by decide

theorem witness_WriteMatchMarksDirty : (dirty37.line (lineIndex 37#16)).tag = 37#16 := by decide

theorem witness_WriteDifferWritesBackThenInstalls : (dirty37.line (lineIndex 6#16)).tag ≠ 6#16 := by decide

theorem witness_MainMemoryHoldsLastWrite : 5#16 ≠ 6#16 := by decide

theorem witness_AccessedAddressStaysResident :
    ∀ y ∈ [Access.read 6#16, .write 5#16 1#16, .read 38#16],
      lineIndex y.addr = lineIndex (Access.read 5#16).addr → y.addr = (Access.read 5#16).addr := by decide

theorem witness_CacheRefinesFlatMemory : CacheInv dirty37 := by decide

/-- V-C1: 5 is written, and 37, of the same line, is written over it. -/
theorem witness_ReadReturnsLatestWrite :
    DirtyPlaced dirty37 ∧ DirtyPlaced (boot [] 1#16) ∧
    ∀ v ∈ [111#16, 222#16, 0#16], Access.write 5#16 v ∉ [Access.write 37#16 222#16, .read 5#16] :=
  ⟨by decide, by decide, by simp⟩

theorem witness_SentinelLineAfterReset :
    0#16 ≠ 65535#16 ∧ lineIndex (Access.read 31#16).addr = 31 ∧ (Access.read 31#16).addr ≠ 65535#16 := by decide

theorem witness_SentinelLineHealed :
    CacheInvButSentinel (boot [] 1#16) ∧ ¬ CacheInv (boot [] 1#16) ∧ lineIndex 31#16 = 31 ∧ ¬ resident (boot [] 1#16) 31#16 ∧
    lineIndex 65535#16 = 31 := by decide

theorem witness_FetchSeesStore :
    (regs 65535#17 0#17 0#16).run = .running ∧ (regs 65535#17 0#17 0#16).pc.toNat ≤ 65535 := by decide

theorem witness_AccessesAreRangeChecked :
    ((0 : Int) ≤ 0 ∧ (0 : Int) ≤ 65535) ∧ ((0 : Int) ≤ 65535 ∧ (65535 : Int) ≤ 65535) ∧
    ((-1 : Int) < 0 ∨ (65535 : Int) < -1) ∧ ((65536 : Int) < 0 ∨ (65535 : Int) < 65536) := by decide

theorem witness_PopReadsThenIncrements :
    (regs 0#17 65535#17 0#16).sp.toNat ≤ 65535 ∧ 65535 < (regs 0#17 65536#17 0#16).sp.toNat := by decide

/-- A short image, the longest that fits, and one a Word too long. -/
theorem witness_ImageIsLoaded :
    [1#16, 0#16].length ≤ 65536 ∧ (List.replicate 65536 (1#16 : Word)).length ≤ 65536 ∧
    65536 < (List.replicate 65537 (0#16 : Word)).length :=
  ⟨by decide, by rw [List.length_replicate], by rw [List.length_replicate]; decide⟩

/-- The empty image, and one of 65,536 Words. -/
theorem witness_BootMeetsEveryInvariant :
    ([] : List Word).length ≤ 65536 ∧ (List.replicate 65536 (1#16 : Word)).length ≤ 65536 :=
  ⟨by decide, by rw [List.length_replicate]⟩

/-- A NOP from reset, a fetch at 65536, and V-T5's JEQ at 65535. -/
theorem witness_StepKeepsRegistersInRange :
    let s := machine [1#16] 0#17 65536#17 0#16 []
    let f := regs 65536#17 65536#17 0#16
    let j := { machine [] 65535#17 100#17 0#16 [(100, 1#16)] with
      cache := (boot [] 0#16).cache.set 31 ⟨65535#16, 9#16, true⟩ (by decide) }
    (RegistersInRange s ∧ step s = .next (stepState s) ∧ (stepState s).run = .running) ∧
    (RegistersInRange f ∧ step f = .next (stepState f)) ∧
    (RegistersInRange j ∧ step j = .next (stepState j) ∧ (stepState j).run = .running ∧ (stepState j).pc = 65537#17) :=
  ⟨⟨by decide, step_stepState rfl, by decide⟩, ⟨by decide, step_stepState rfl⟩, by decide, step_stepState rfl, by decide,
    by decide⟩

/-- A PUSHC on a machine with a dirty line, and one on a machine whose line 31 breaks the invariant. -/
theorem witness_StepKeepsMemoryInvariants :
    let s := { dirty37 with mem := [(0, 12#16), (1, 7#16)] }
    let c := boot [12#16, 7#16] 1#16
    (step s = .next (stepState s) ∧ CacheInv s ∧ CacheInvButSentinel s ∧ DirtyPlaced s ∧ s.mem.wf) ∧
    (step c = .next (stepState c) ∧ CacheInvButSentinel c ∧ ¬ CacheInv c) :=
  ⟨⟨step_stepState rfl, by decide, by decide, by decide, by decide⟩, step_stepState rfl, by decide, by decide⟩

theorem witness_StepKeepsMissesEqualReads :
    step (boot [12#16, 7#16] 1#16) = .next (stepState (boot [12#16, 7#16] 1#16)) ∧
    (boot [12#16, 7#16] 1#16).misses = (boot [12#16, 7#16] 1#16).memReads :=
  ⟨step_stepState rfl, by decide⟩

theorem witness_StepKeepsRecordsConsistent :
    let s := { machine [10#16] 0#17 100#17 0#16 [(100, 65533#16)] with out := [.printChar 255, .printInt (-32768)] }
    RegistersInRange s ∧ step s = .next (stepState s) ∧ EndConsistent s ∧ OutInRange s ∧ FaultInRange s :=
  ⟨by decide, step_stepState rfl, by decide, by decide, fun _ h => nomatch h⟩

/-- A machine, and the same one after a read that filled a line and counted a miss: not the same state, but the same to a
program. -/
theorem witness_CacheIsInvisibleToProgram :
    let s := boot [12#16, 7#16] 0#16
    let t := (cacheRead 32#16 s).2
    CacheInv s ∧ CacheInv t ∧ SameToProgram s t ∧ s ≠ t ∧ step s = .next (stepState s) := by
  have hs : CacheInv (boot [12#16, 7#16] 0#16) := by decide
  refine ⟨hs, by decide, ⟨rfl, rfl, rfl, rfl, rfl, rfl, rfl, rfl, fun a => ?_⟩, by decide, step_stepState rfl⟩
  exact (cacheRead_view hs.butSentinel.dirtyPlaced _ (hs.butSentinel.viewBacked (Or.inr hs))).2.symm

end Sys2Proof.Tests
end

/-! The cache controller's cases as exact next states (20_memory.md R34 to R36) and the placement of addresses on lines (R32). -/

namespace Sys2Proof.Machine

/-! ### The accesses -/

/-- A write-back as one record update, whatever the dirty bit: it touches the write-back counter and main memory only. -/
theorem writeBack_eq (l : Line) (s : State) :
    writeBack l s = { s with
      memWrites := if l.dirty = true then s.memWrites + 1 else s.memWrites
      mem := if l.dirty = true then s.mem.write l.tag.toNat l.contents else s.mem } := by
  cases h : l.dirty with
  | true => rw [writeBack_dirty h]; rfl
  | false => rw [writeBack_clean h]; rfl

/-- Settles O37: a hit returns the line's contents in the state that has counted the hit. -/
theorem readHitReturnsContents : Obligations.ReadHitReturnsContents :=
  fun _ _ hit => cacheRead_hit hit

/-- Settles O38: the filled Word may be read before the victim's write-back, which is at another address; what is left is the
write-back as a record update. -/
theorem readMissWritesBackThenFills : Obligations.ReadMissWritesBackThenFills := by
  intro s a miss
  rw [cacheRead_miss miss, writeBack_eq]
  rfl

/-- Settles O39: a write whose tag matches is one line update. -/
theorem writeMatchMarksDirty : Obligations.WriteMatchMarksDirty :=
  fun _ _ v tagMatches => cacheWrite_match v tagMatches

/-! ### The line of an address (R32) -/

theorem lineIndex_val_eq_extractLsb' (a : Word) : (lineIndex a).val = (a.extractLsb' 0 5).toNat := by
  rw [lineIndex_val, BitVec.extractLsb'_toNat, Nat.shiftRight_zero]

theorem lineIndex_eq_iff_extractLsb'_eq (a b : Word) :
    lineIndex a = lineIndex b ↔ a.extractLsb' 0 5 = b.extractLsb' 0 5 := by
  rw [Fin.ext_iff, lineIndex_val_eq_extractLsb', lineIndex_val_eq_extractLsb', BitVec.toNat_inj]

/-- The addresses of line `i` are `i, 32 + i, …, 32 * 2047 + i`: `k` is the address's upper eleven bits. -/
theorem lineIndex_eq_iff_exists (a : Word) (i : LineIndex) :
    lineIndex a = i ↔ ∃ k : Fin 2048, a.toNat = 32 * k.val + i.val := by
  have ha : a.toNat < 65536 := a.isLt
  rw [Fin.ext_iff, lineIndex_val]
  constructor
  · intro h
    exact ⟨⟨a.toNat / 32, by omega⟩, by rw [← h, Nat.div_add_mod]⟩
  · rintro ⟨k, hk⟩
    rw [hk, Nat.mul_add_mod, Nat.mod_eq_of_lt i.isLt]

/-- The wrap of the address from 65535 to 0 is also a wrap from line 31 to line 0, since 32 divides 65536. -/
theorem lineIndex_add_one_val (a : Word) : (lineIndex (a + 1#16)).val = ((lineIndex a).val + 1) % 32 := by
  have hwrap : (a + 1#16).toNat = (a.toNat + 1) % 65536 := BitVec.toNat_add a 1#16
  rw [lineIndex_val, lineIndex_val, hwrap, Nat.mod_mod_of_dvd _ (by decide), Nat.mod_add_mod]

/-- Settles O41: the four facts above, the remainder by 32 being the definition of the line. -/
theorem lineIsLowFiveBits : Obligations.LineIsLowFiveBits :=
  ⟨fun a => ⟨lineIndex_val_eq_extractLsb' a, lineIndex_val a⟩, lineIndex_eq_iff_extractLsb'_eq, lineIndex_eq_iff_exists,
    lineIndex_add_one_val⟩

end Sys2Proof.Machine

/-! The instruction cycle (40_cycle_halt_nop.md): the stopped engine (R77), the step of a decoded instruction with NOP (R70 to
R72, R78), and the pop (R75). -/

namespace Sys2Proof.Machine

/-! ### The stopped engine (R77) -/

theorem step_halted {s : State} (h : s.run = .halted) : step s = .fault .engineHalted := by
  unfold step; rw [h]

theorem step_faulted {s : State} (h : s.run = .faulted) : step s = .fault .engineFaulted := by
  unfold step; rw [h]

/-- Settles O9: each stopped `RUN` has its own equation of `step`. -/
theorem stoppedEngineTakesNoStep : Obligations.StoppedEngineTakesNoStep :=
  fun _ => ⟨step_halted, step_faulted⟩

/-! ### The step of a decoded instruction (R70 to R72) and NOP (R78) -/

/-- The fetch succeeds and its Word is an instruction's: the step is that instruction's execution after the fetch. -/
theorem step_of_decode {i : Instr} {s : State} (running : s.run = .running) (inMemory : s.pc.toNat ≤ 65535)
    (decoded : decode (view s s.pcWord) = some i) :
    step s = exec i { transact [.read s.pcWord] s with iaddr := s.pc, pc := s.pc + 1#17 } := by
  rw [step_running running, runStep, fetchOpcode_ok inMemory]
  simp only [dispatchWord, decoded]
  rfl

@[simp] theorem exec_nop (s : State) : exec .nop s = .next s := rfl

/-- Settles O11: the Word 1 decodes to NOP, so the step is the fetch followed by an execution without effect. -/
theorem nopOnlyFetches : Obligations.NopOnlyFetches := by
  refine ⟨rfl, exec_nop, fun s running inMemory word => ?_⟩
  have decoded : decode (view s s.pcWord) = some .nop := by rw [word]; rfl
  rw [step_of_decode running inMemory decoded, exec_nop]

/-! ### The pop (R75) -/

/-- A read leaves the view of its own address alone whatever the line held: a hit leaves the line, and a miss fills it with
the Word that was viewed. -/
@[simp] theorem view_cacheRead_same (a : Word) (s : State) : view (cacheRead a s).2 a = view s a := by
  by_cases hit : (s.line (lineIndex a)).tag = a
  · rw [cacheRead_hit hit]; rfl
  · rw [view_resident (cacheRead_resident a s), cacheRead_line, if_pos ⟨rfl, hit⟩, view_not_resident hit]

/-- Settles O51: on an address the pop is one read and a move of `SP`, and both leave the view of the popped cell alone. -/
theorem popReadsThenIncrements : Obligations.PopReadsThenIncrements := by
  refine fun s => ⟨fun inMemory => ⟨pop_ok inMemory, toNat_ctrl_add_one (by omega), _, pop_ok inMemory, ?_⟩, pop_fault⟩
  rw [view_setSp, view_cacheRead_same]

end Sys2Proof.Machine


/-! JMP (42_control_transfer.md R90). -/

namespace Sys2Proof.Machine

/-- JMP as its one load followed by the assignment of `PC`. -/
theorem exec_jmp (s : State) :
    exec .jmp s =
      ((load (ctrlInt s.pc) s).andThen fun t s => Micro.done () (s.setPc (wordToCtrl t))).outcome := rfl

/-- The operand lies in memory: the load answers its Word, and its cache read is JMP's only transaction. -/
theorem exec_jmp_ok {s : State} (inMemory : s.pc.toNat ≤ 65535) :
    exec .jmp s = .next { transact [.read s.pcWord] s with pc := (view s s.pcWord).setWidth 17 } := by
  rw [exec_jmp, load_pc_ok inMemory]
  rfl

/-- The operand lies past the end of memory: the load raises, and `PC` is not assigned. -/
theorem exec_jmp_fault {s : State} (pastEnd : 65535 < s.pc.toNat) :
    exec .jmp s = .next (raise .addressRange (ctrlInt s.pc) s) := by
  rw [exec_jmp, load_pc_fault pastEnd]
  rfl

/-- Settles O19: the encoding is by computation, and the load of the operand either succeeds or faults with `PC`'s range. -/
theorem jmpAssignsPc : Obligations.JmpAssignsPc :=
  ⟨fun _ => rfl, fun _ => exec_jmp_ok, fun _ => exec_jmp_fault⟩

end Sys2Proof.Machine


/-! PUSHC, PUSHA and PUSHR (44_stack_memory.md R110 to R112): the operand is fetched, a Word is found, and the Word is pushed. -/

namespace Sys2Proof.Machine

/-! ### Transactions one after another (R49) -/

theorem transact_concat (xs : List Access) (x : Access) (s : State) :
    transact (xs ++ [x]) s = x.run (transact xs s) :=
  List.foldl_concat _ _ _ _

theorem run_sp (x : Access) (s : State) : (x.run s).sp = s.sp := by
  cases x with
  | read a => exact cacheRead_sp a s
  | write a v => exact cacheWrite_sp a v s

/-- The cache controller has no access to `SP`. -/
@[simp] theorem transact_sp (xs : List Access) (s : State) : (transact xs s).sp = s.sp := by
  induction xs generalizing s with
  | nil => rfl
  | cons x xs ih => exact (ih (x.run s)).trans (run_sp x s)

@[simp] theorem transact_spWord (xs : List Access) (s : State) : (transact xs s).spWord = s.spWord := by
  rw [State.spWord, transact_sp, State.spWord]

/-! ### The two ends the three instructions share: the operand fetch and the push -/

/-- With the operand past the end of memory, nothing after the fetch takes effect. -/
theorem fetchOperand_andThen_fault {β : Type} {s : State} (pastEnd : 65535 < s.pc.toNat) (k : Word → State → Micro β) :
    ((fetchOperand s).andThen k).outcome = .next (raise .addressRange (ctrlInt s.pc) s) := by
  rw [fetchOperand_fault pastEnd, Micro.andThen_raised, Micro.outcome_raised]

/-- An operand in memory goes to what follows the fetch, with the fetch as one transaction. -/
theorem fetchOperand_andThen_ok {β : Type} {s : State} (inMemory : s.pc.toNat ≤ 65535) (k : Word → State → Micro β) :
    (fetchOperand s).andThen k = k (view s s.pcWord) ((transact [.read s.pcWord] s).setPc (s.pc + 1#17)) := by
  rw [fetchOperand_ok inMemory, Micro.andThen_done]
  rfl

/-- A push that ends an instruction, after the transactions `xs` and a move of `PC`, is one more transaction. -/
theorem push_after_transact_ok {s : State} (room : 1 ≤ s.sp.toNat) (inStack : s.sp.toNat ≤ 65536) (xs : List Access)
    (x : Ctrl) (v : Word) :
    (push v ((transact xs s).setPc x)).outcome =
      .next { transact (xs ++ [.write (s.spWord - 1#16) v]) s with pc := x, sp := s.sp - 1#17 } := by
  have sameSp : ((transact xs s).setPc x).sp = s.sp := transact_sp xs s
  rw [push_ok (by rw [sameSp]; exact room) (by rw [sameSp]; exact inStack), sameSp, setPc_spWord, transact_spWord,
    cacheWrite_setPc, transact_concat]
  rfl

/-- The same push on a full stack: the transactions and the move of `PC` stay. -/
theorem push_after_transact_fault {s : State} (full : s.sp.toNat = 0) (xs : List Access) (x : Ctrl) (v : Word) :
    (push v ((transact xs s).setPc x)).outcome =
      .next (raise .addressRange (-1) { transact xs s with pc := x }) := by
  have sameSp : ((transact xs s).setPc x).sp = s.sp := transact_sp xs s
  rw [push_empty_fault (by rw [sameSp]; exact full)]
  rfl

/-! ### PUSHC (R110) -/

theorem exec_pushc (s : State) : exec .pushc s = ((fetchOperand s).andThen fun k s => push k s).outcome := rfl

/-- With its operand in memory, PUSHC comes to the push of the operand. -/
theorem exec_pushc_of_operand {s : State} (inMemory : s.pc.toNat ≤ 65535) :
    exec .pushc s =
      (push (view s s.pcWord) ((transact [.read s.pcWord] s).setPc (s.pc + 1#17))).outcome := by
  rw [exec_pushc, fetchOperand_andThen_ok inMemory]

/-- Settles O29: PUSHC is the operand fetch followed by the push, and each of the two completes or faults. -/
theorem pushcPushesOperand : Obligations.PushcPushesOperand := by
  refine ⟨fun _ => rfl, fun s inMemory room inStack => ?completes, fun s pastEnd => ?noOperand,
    fun s inMemory full => ?fullStack⟩
  case completes => exact (exec_pushc_of_operand inMemory).trans (push_after_transact_ok room inStack _ _ _)
  case noOperand => exact fetchOperand_andThen_fault pastEnd _
  case fullStack => exact (exec_pushc_of_operand inMemory).trans (push_after_transact_fault full _ _ _)

/-! ### PUSHA (R111) -/

theorem exec_pusha (s : State) :
    exec .pusha s =
      ((fetchOperand s).andThen fun t s => (load (unsigned t) s).andThen fun v s => push v s).outcome := rfl

/-- With its operand in memory, PUSHA comes to the push of the cell read at the operand's address, which no operand puts
out of range. -/
theorem exec_pusha_of_operand {s : State} (inMemory : s.pc.toNat ≤ 65535) :
    exec .pusha s =
      (push (view (transact [.read s.pcWord] s) (view s s.pcWord))
        ((transact [.read s.pcWord, .read (view s s.pcWord)] s).setPc (s.pc + 1#17))).outcome := by
  rw [exec_pusha, fetchOperand_andThen_ok inMemory, load_word, Micro.andThen_done, view_setPc, cacheRead_setPc]
  rfl

/-- Settles O30: after the operand fetch and the read of the cell, both of which precede the push, the push completes or
faults. -/
theorem pushaPushesCell : Obligations.PushaPushesCell := by
  refine ⟨fun _ => rfl, fun s inMemory => ⟨fun room inStack => ?completes, fun full => ?fullStack⟩,
    fun s pastEnd => ?noOperand⟩
  case completes => exact (exec_pusha_of_operand inMemory).trans (push_after_transact_ok room inStack _ _ _)
  case fullStack => exact (exec_pusha_of_operand inMemory).trans (push_after_transact_fault full _ _ _)
  case noOperand => exact fetchOperand_andThen_fault pastEnd _

/-! ### PUSHR (R112) -/

theorem exec_pushr (s : State) :
    exec .pushr s =
      ((fetchOperand s).andThen fun off s => (load (frameAddr s.fp off) s).andThen fun v s => push v s).outcome := rfl

section OperandInMemory

variable {s : State} (inMemory : s.pc.toNat ≤ 65535)
include inMemory

/-- With its operand in memory, PUSHR comes to the load at `FP + offset` and the push; the fetch leaves `FP` alone. -/
theorem exec_pushr_of_operand :
    exec .pushr s =
      ((load (frameAddr s.fp (view s s.pcWord)) ((transact [.read s.pcWord] s).setPc (s.pc + 1#17))).andThen
        fun v s => push v s).outcome := by
  have sameFp : ((transact [.read s.pcWord] s).setPc (s.pc + 1#17)).fp = s.fp := cacheRead_fp s.pcWord s
  rw [exec_pushr, fetchOperand_andThen_ok inMemory, sameFp]

/-- With its effective address in memory too, PUSHR comes to the push of the cell read there. -/
theorem exec_pushr_of_frameAddr (nonneg : 0 ≤ frameAddr s.fp (view s s.pcWord))
    (le : frameAddr s.fp (view s s.pcWord) ≤ 65535) :
    exec .pushr s =
      (push (view (transact [.read s.pcWord] s) (wrap16 (frameAddr s.fp (view s s.pcWord))))
        ((transact [.read s.pcWord, .read (wrap16 (frameAddr s.fp (view s s.pcWord)))] s).setPc
          (s.pc + 1#17))).outcome := by
  rw [exec_pushr_of_operand inMemory, load_ok nonneg le, Micro.andThen_done, view_setPc, cacheRead_setPc]
  rfl

/-- With its effective address out of memory, PUSHR's load faults after the operand fetch. -/
theorem exec_pushr_frameAddr_fault
    (outside : frameAddr s.fp (view s s.pcWord) < 0 ∨ 65535 < frameAddr s.fp (view s s.pcWord)) :
    exec .pushr s = .next (raise .addressRange (frameAddr s.fp (view s s.pcWord))
      { transact [.read s.pcWord] s with pc := s.pc + 1#17 }) := by
  rw [exec_pushr_of_operand inMemory, load_fault outside]
  rfl

end OperandInMemory

/-- Settles O31: the operand fetch, the load at `FP + offset` and the push, each of which completes or faults. -/
theorem pushrPushesFrameCell : Obligations.PushrPushesFrameCell := by
  refine ⟨fun _ => rfl, fun s inMemory => ⟨fun nonneg le room inStack => ?completes, exec_pushr_frameAddr_fault inMemory,
    fun nonneg le full => ?fullStack⟩, fun s pastEnd => ?noOperand⟩
  case completes =>
    exact (exec_pushr_of_frameAddr inMemory nonneg le).trans (push_after_transact_ok room inStack _ _ _)
  case fullStack =>
    exact (exec_pushr_of_frameAddr inMemory nonneg le).trans (push_after_transact_fault full _ _ _)
  case noOperand => exact fetchOperand_andThen_fault pastEnd _

end Sys2Proof.Machine

/-! The faults of 60_exceptions.md: the opcode Words that are no instruction (R122), and DIV by zero (R123). -/

namespace Sys2Proof.Machine

/-! ### `InvalidOpcode` at dispatch (R72, R122) -/

theorem decode_eq_none_of_le {w : Word} (h : 17 ≤ w.toNat) : decode w = none := by
  unfold decode
  split
  case h_18 => rfl
  all_goals omega

/-- The fetch succeeds and its Word is no instruction's: the step is the fault entry after the fetch. -/
theorem step_of_decode_none {s : State} (running : s.run = .running) (inMemory : s.pc.toNat ≤ 65535)
    (undecoded : decode (view s s.pcWord) = none) :
    step s = .next (raise .invalidOpcode (unsigned (view s s.pcWord))
      { transact [.read s.pcWord] s with iaddr := s.pc, pc := s.pc + 1#17 }) := by
  rw [step_running running, runStep, fetchOpcode_ok inMemory]
  simp only [dispatchWord, undecoded]
  rfl

/-! ### No instruction's own execution raises `InvalidOpcode` (R122) -/

/-- The recorded fault, if there is one, is not an `InvalidOpcode`. -/
def NoInvalidOpcode (s : State) : Prop := ∀ f, s.fault = some f → f.cause ≠ .invalidOpcode

theorem noInvalidOpcode_of_fault_none {s : State} (h : s.fault = none) : NoInvalidOpcode s := by
  intro f hf
  rw [h] at hf
  cases hf

theorem noInvalidOpcode_congr {s t : State} (same : t.fault = s.fault) (h : NoInvalidOpcode s) : NoInvalidOpcode t :=
  fun f hf => h f (same ▸ hf)

theorem RaisedInExec.cause_ne_invalidOpcode {c : Cause} {n : Int} {s : State} (h : RaisedInExec c n s) :
    c ≠ .invalidOpcode := by
  rcases h with ⟨rfl, -⟩ | ⟨rfl, -⟩ <;> decide

theorem noInvalidOpcode_raise {c : Cause} {n : Int} {s : State} (h : RaisedInExec c n s) :
    NoInvalidOpcode (raise c n s) := by
  intro f hf
  cases hf
  exact h.cause_ne_invalidOpcode

/-- `FAULT` is written by the fault entry alone, and none of an instruction's own faults has that cause. -/
theorem noInvalidOpcode_kept (i : Instr) : Kept i NoInvalidOpcode where
  read a s := noInvalidOpcode_congr (cacheRead_fault a s)
  write _ a v s := noInvalidOpcode_congr (cacheWrite_fault a v s)
  setPc v s _ := noInvalidOpcode_congr (setPc_fault s v)
  setSp _ v s _ := noInvalidOpcode_congr (setSp_fault s v)
  setFp _ v s := noInvalidOpcode_congr (setFp_fault s v)
  emit _ e s _ := noInvalidOpcode_congr (emit_fault s e)
  raise _ _ _ raised _ := noInvalidOpcode_raise raised
  halt _ _ _ := noInvalidOpcode_congr rfl

/-- Settles O8: a Word from 17 up does not decode, so the step ends in the dispatch's fault; and every operation of an
instruction keeps `NoInvalidOpcode`. -/
theorem invalidOpcodeRaisedAtDispatchOnly : Obligations.InvalidOpcodeRaisedAtDispatchOnly := by
  refine ⟨fun s running inMemory noOpcode => ?dispatch, fun i s t f executes recorded noFault => ?execution⟩
  case dispatch => exact step_of_decode_none running inMemory (decode_eq_none_of_le noOpcode)
  case execution =>
    exact exec_keeps (noInvalidOpcode_kept i) (noInvalidOpcode_of_fault_none noFault) executes f recorded

/-! ### DIV by zero (R85, R123) -/

/-- A pop that has a Word to take hands it to what follows, with the read as one transaction. -/
theorem pop_andThen_ok {β : Type} {s : State} (nonempty : s.sp.toNat ≤ 65535) (k : Word → State → Micro β) :
    (pop s).andThen k = k (view s s.spWord) ((transact [.read s.spWord] s).setSp (s.sp + 1#17)) := by
  rw [pop_ok nonempty, Micro.andThen_done]
  rfl

/-- Two pops from a stack of two Words or more: the top Word, the next Word, and `SP` up by 2. -/
theorem pop_pop_andThen_ok {β : Type} {s : State} (twoWords : s.sp.toNat ≤ 65534) (k : Word → Word → State → Micro β) :
    ((pop s).andThen fun a s => (pop s).andThen (k a)) =
      k (view s s.spWord) (view (transact [.read s.spWord] s) (s.spWord + 1#16))
        ((transact [.read s.spWord, .read (s.spWord + 1#16)] s).setSp (s.sp + 2#17)) := by
  have nextWord : ((transact [.read s.spWord] s).setSp (s.sp + 1#17)).spWord = s.spWord + 1#16 := by
    rw [setSp_spWord, setWidth_succ, setWidth_sp]
  have nonempty : ((transact [.read s.spWord] s).setSp (s.sp + 1#17)).sp.toNat ≤ 65535 := by
    rw [setSp_sp, toNat_ctrl_add_one (by omega)]
    omega
  have upByTwo : s.sp + 1#17 + 1#17 = s.sp + 2#17 := BitVec.add_assoc s.sp 1#17 1#17
  rw [pop_andThen_ok (by omega), pop_ok nonempty, nextWord, Micro.andThen_done, view_setSp, cacheRead_setSp, setSp_sp,
    upByTwo]
  rfl

theorem exec_div (s : State) :
    exec .div s = ((pop s).andThen fun a s => (pop s).andThen fun b s =>
      if isZeroDivisor a then fail .divideByZero 0 s
      else push (wrap16 (aluDiv (signed b) (signed a))) s).outcome := rfl

/-- Settles O16: both pops succeed, and the zero test, which precedes the push, raises. -/
theorem divByZeroFaults : Obligations.DivByZeroFaults := by
  intro s twoWords zero
  have zeroDivisor : isZeroDivisor (view s s.spWord) = true := (isZeroDivisor_iff _).2 zero
  rw [exec_div, pop_pop_andThen_ok twoWords, if_pos zeroDivisor]
  rfl

end Sys2Proof.Machine


/-! Encoding and decoding (30_encoding.md R60 to R68): the opcode Words, one written instruction, and whole images. -/

namespace Sys2Proof

/-! ### The opcode Words (R62, R64) -/

/-- Settles O1: the table is a finite list of closed facts. -/
theorem opcodeTableDecodes : Obligations.OpcodeTableDecodes := by
  refine ⟨by decide, by decide, by decide, by decide, by decide⟩

@[simp] theorem decode_opcodeWord (i : Instr) : decode i.opcodeWord = some i := by cases i <;> rfl

theorem eq_opcodeWord_of_decode {w : Word} {i : Instr} (h : decode w = some i) : w = i.opcodeWord := by
  apply BitVec.eq_of_toNat_eq
  unfold decode at h
  split at h <;> cases h <;> assumption

theorem le_of_decode_eq_none {w : Word} (h : decode w = none) : 17 ≤ w.toNat := by
  by_contra hlt
  have isNumber : w.toNat < 17 := by omega
  unfold decode at h
  interval_cases w.toNat <;> cases h

/-- Settles O2: `decode` inverts `opcodeWord`, and the Words it leaves out are those from 17 up. -/
theorem decodeIsWholeWordCompare : Obligations.DecodeIsWholeWordCompare := fun _ =>
  ⟨fun i => ⟨eq_opcodeWord_of_decode, fun h => h ▸ decode_opcodeWord i⟩,
    le_of_decode_eq_none, Machine.decode_eq_none_of_le⟩

/-! ### One written instruction (R60, R61) -/

/-- The two forms of a well-formed instruction: no operand with format `z`, one operand Word with format `w`. -/
theorem AsmInstr.wf_iff (a : AsmInstr) :
    a.wf = true ↔ (a.op.format = .z ∧ a.operand = none) ∨ (a.op.format = .w ∧ ∃ k, a.operand = some k) := by
  obtain ⟨i, operand⟩ := a
  cases hf : i.format <;> cases operand <;> simp [wf, noStrayOperand, hasItsOperand, hf]

theorem decodeInstr_opcodeWord_z {i : Instr} (h : i.format = .z) (rest : List Word) :
    decodeInstr (i.opcodeWord :: rest) = some (⟨i, none⟩, rest) := by
  simp only [decodeInstr, decode_opcodeWord, h]

theorem decodeInstr_opcodeWord_w {i : Instr} (h : i.format = .w) (k : Word) (rest : List Word) :
    decodeInstr (i.opcodeWord :: k :: rest) = some (⟨i, some k⟩, rest) := by
  simp only [decodeInstr, decode_opcodeWord, h]

/-- Whatever is decoded is well formed: the decoder supplies an operand exactly where the format has one. -/
theorem wf_of_decodeInstr {ws rest : List Word} {a : AsmInstr} (h : decodeInstr ws = some (a, rest)) : a.wf = true := by
  rw [AsmInstr.wf_iff]
  unfold decodeInstr at h
  split at h
  · cases h
  split at h
  · cases h
  split at h
  next hf => cases h; exact .inl ⟨hf, rfl⟩
  · cases h
  next hf => cases h; exact .inr ⟨hf, _, rfl⟩

/-- Settles O3: a well-formed instruction is read back by its format's decoder equation, and only well-formed ones are
read at all. -/
theorem decodeOfEncodeInstr : Obligations.DecodeOfEncodeInstr := by
  refine fun a rest => ⟨fun h => ?_, wf_of_decodeInstr⟩
  obtain ⟨i, operand⟩ := a
  rcases (AsmInstr.wf_iff _).1 h with ⟨hf, rfl⟩ | ⟨hf, k, rfl⟩
  · exact decodeInstr_opcodeWord_z hf rest
  · exact decodeInstr_opcodeWord_w hf k rest

/-! ### Whole images (R67, R68) -/

theorem decodeProgram_opcodeWord_z {i : Instr} (h : i.format = .z) (ws : List Word) :
    decodeProgram (i.opcodeWord :: ws) = (decodeProgram ws).map (⟨i, none⟩ :: ·) := by
  cases ws <;> simp [decodeProgram, h]

theorem decodeProgram_opcodeWord_w {i : Instr} (h : i.format = .w) (k : Word) (ws : List Word) :
    decodeProgram (i.opcodeWord :: k :: ws) = (decodeProgram ws).map (⟨i, some k⟩ :: ·) := by
  simp [decodeProgram, h]

/-- An image begins with the Words of the first instruction, and decoding goes on after them. -/
theorem decodeProgram_encode_append {a : AsmInstr} (h : a.wf = true) (ws : List Word) :
    decodeProgram (encode a ++ ws) = (decodeProgram ws).map (a :: ·) := by
  obtain ⟨i, operand⟩ := a
  rcases (AsmInstr.wf_iff _).1 h with ⟨hf, rfl⟩ | ⟨hf, k, rfl⟩
  · exact decodeProgram_opcodeWord_z hf ws
  · exact decodeProgram_opcodeWord_w hf k ws

/-- Settles O4, by induction on the program. -/
theorem decodeOfEncodeProgram : Obligations.DecodeOfEncodeProgram := by
  intro p wf
  induction p with
  | nil => rfl
  | cons a p ih =>
    rw [List.forall_mem_cons] at wf
    rw [encodeProgram, List.flatMap_cons, decodeProgram_encode_append wf.1, ← encodeProgram, ih wf.2, Option.map_some]

/-- What an image decodes to: nothing for the empty image, else a well-formed instruction whose Words the image begins with,
and what the Words after them decode to. -/
theorem decodeProgram_cases {ws : List Word} {p : List AsmInstr} (h : decodeProgram ws = some p) :
    (ws = [] ∧ p = []) ∨
      ∃ a ws' p', a.wf = true ∧ ws = encode a ++ ws' ∧ decodeProgram ws' = some p' ∧ p = a :: p' := by
  rcases ws with _ | ⟨w, ws⟩
  · cases h; exact .inl ⟨rfl, rfl⟩
  right
  cases hd : decode w with
  | none => cases ws <;> simp [decodeProgram, hd] at h
  | some i =>
    obtain rfl := eq_opcodeWord_of_decode hd
    cases hf : i.format with
    | z =>
      rw [decodeProgram_opcodeWord_z hf, Option.map_eq_some_iff] at h
      obtain ⟨p', h', rfl⟩ := h
      exact ⟨⟨i, none⟩, ws, p', (AsmInstr.wf_iff _).2 (.inl ⟨hf, rfl⟩), rfl, h', rfl⟩
    | w =>
      rcases ws with _ | ⟨k, ws⟩
      · simp [decodeProgram, hf] at h
      rw [decodeProgram_opcodeWord_w hf, Option.map_eq_some_iff] at h
      obtain ⟨p', h', rfl⟩ := h
      exact ⟨⟨i, some k⟩, ws, p', (AsmInstr.wf_iff _).2 (.inr ⟨hf, k, rfl⟩), rfl, h', rfl⟩

/-- Settles O5, by induction on the image: its first instruction takes one Word or two, and the rest is a shorter image. -/
theorem encodeOfDecodeProgram : Obligations.EncodeOfDecodeProgram := by
  intro ws p h
  induction p generalizing ws with
  | nil =>
    rcases decodeProgram_cases h with ⟨rfl, -⟩ | ⟨a, ws', p', -, -, -, hp⟩
    · simp [encodeProgram]
    · cases hp
  | cons a p ih =>
    rcases decodeProgram_cases h with ⟨-, hp⟩ | ⟨a', ws', p', wf, rfl, h', hp⟩
    · cases hp
    · cases hp
      obtain ⟨wf', enc⟩ := ih ws' h'
      exact ⟨List.forall_mem_cons.2 ⟨wf, wf'⟩, by rw [← enc]; rfl⟩

end Sys2Proof


/-! Main memory, the cache and the view (20_memory.md R34 to R58): exact cases, counters, residency, the refinement to a flat
memory, and coherence. -/

namespace Sys2Proof.Machine

/-! ### Main memory and the write miss (R37, R40) -/

/-- Settles O42: `Memory.write` is read back by the law of read after write, and the port touches nothing else. -/
theorem mainMemoryHoldsLastWrite : Obligations.MainMemoryHoldsLastWrite := by
  intro s a b v
  refine ⟨?_, fun other => ?_, rfl⟩
  · rw [memRead_memWrite, if_pos rfl]
  · rw [memRead_memWrite, if_neg other]

/-- Settles O40: the write-back as a record update, then one line update. -/
theorem writeDifferWritesBackThenInstalls : Obligations.WriteDifferWritesBackThenInstalls := by
  intro s a v differs
  rw [cacheWrite_differ v differs, writeBack_eq]
  rfl

/-! ### Counters (R38) -/

/-- Settles O43, by induction on the transactions; one read is one hit or one miss, and one transaction writes back at most
one line. -/
theorem countersCountAccesses : Obligations.CountersCountAccesses := by
  intro xs
  induction xs with
  | nil => intro s; simp [transact]
  | cons x xs ih =>
    intro s
    obtain ⟨accesses, mainReads, mono, bound⟩ := ih (x.run s)
    cases x with
    | read a =>
      have counts := cacheRead_counts a s
      have writes := cacheRead_memWrites a s
      simp only [transact, List.foldl_cons, List.filter_cons, List.length_cons, Access.run, if_true] at *
      omega
    | write a v =>
      have writes := cacheWrite_memWrites a v s
      simp only [transact, List.foldl_cons, List.filter_cons, List.length_cons, Access.run, cacheWrite_hits,
        cacheWrite_misses, cacheWrite_memReads, Bool.false_eq_true, if_false] at *
      omega

/-! ### Residency (R58) -/

theorem run_resident (x : Access) (s : State) : resident (x.run s) x.addr := by
  cases x with
  | read a => exact cacheRead_resident a s
  | write a v => exact cacheWrite_resident a v s

/-- An access to another line leaves the line of `a` alone. -/
theorem run_line_ne {x : Access} {i : LineIndex} (h : i ≠ lineIndex x.addr) (s : State) : (x.run s).line i = s.line i := by
  cases x with
  | read b => exact (cacheRead_line b s i).trans (if_neg fun e => h e.1)
  | write b v => exact (cacheWrite_line b v s i).trans (if_neg h)

/-- An access that does not touch another address of the line keeps a resident address resident. -/
theorem resident_run {x : Access} {a : Word} {s : State} (h : resident s a)
    (noConflict : lineIndex x.addr = lineIndex a → x.addr = a) : resident (x.run s) a := by
  by_cases sameLine : lineIndex x.addr = lineIndex a
  · exact noConflict sameLine ▸ run_resident x s
  · rw [resident, run_line_ne (Ne.symm sameLine)]
    exact h

theorem resident_transact {xs : List Access} {a : Word} {s : State} (h : resident s a)
    (noConflict : ∀ y ∈ xs, lineIndex y.addr = lineIndex a → y.addr = a) : resident (transact xs s) a := by
  induction xs generalizing s with
  | nil => exact h
  | cons x xs ih =>
    rw [List.forall_mem_cons] at noConflict
    exact ih (resident_run h noConflict.1) noConflict.2

/-- Settles O44: residency is kept over the accesses, and a read of a resident address is a hit. -/
theorem accessedAddressStaysResident : Obligations.AccessedAddressStaysResident := by
  intro x xs s noConflict
  have stays := resident_transact (run_resident x s) noConflict
  refine ⟨stays, ?_, ?_⟩ <;> rw [cacheRead_hit stays]
  · exact countHit_hits _
  · exact countHit_misses _

/-! ### The refinement to a flat memory (R54) -/

theorem cacheInv_run {s : State} (h : CacheInv s) (x : Access) : CacheInv (x.run s) := by
  cases x with
  | read a => exact cacheInv_cacheRead h a
  | write a v => exact cacheInv_cacheWrite h a v

theorem dirtyPlaced_run {s : State} (h : DirtyPlaced s) (x : Access) : DirtyPlaced (x.run s) := by
  cases x with
  | read a => exact dirtyPlaced_cacheRead h a
  | write a v => exact dirtyPlaced_cacheWrite h a v

theorem CacheInv.dirtyPlaced {s : State} (h : CacheInv s) : DirtyPlaced s := h.butSentinel.dirtyPlaced

theorem CacheInv.viewBacked {s : State} (h : CacheInv s) (b : Word) : ViewBacked s b := h.butSentinel.viewBacked (.inr h)

theorem CacheInv.view_cacheRead {s : State} (h : CacheInv s) (a b : Word) : view (cacheRead a s).2 b = view s b :=
  (cacheRead_view h.dirtyPlaced a (h.viewBacked b)).2

theorem CacheInv.view_cacheWrite {s : State} (h : CacheInv s) (a v b : Word) :
    view (cacheWrite a v s) b = if b = a then v else view s b := by
  split
  next same => rw [same, view_cacheWrite_same]
  next other => exact (cacheWrite_view h.dirtyPlaced a v other (h.viewBacked b)).2

/-- One transaction does to the view what it does to a flat memory. -/
theorem CacheInv.view_run {s : State} (h : CacheInv s) (x : Access) : view (x.run s) = x.flat (view s) := by
  funext b
  cases x with
  | read a => exact h.view_cacheRead a b
  | write a v => exact h.view_cacheWrite a v b

/-- Settles O45, by induction on the transactions: the commuting square of one transaction, under the kept invariant. -/
theorem cacheRefinesFlatMemory : Obligations.CacheRefinesFlatMemory := by
  intro xs
  induction xs with
  | nil => exact fun s h => ⟨h, fun _ => rfl⟩
  | cons x xs ih =>
    intro s h
    obtain ⟨inv, sameView⟩ := ih (x.run s) (cacheInv_run h x)
    rw [h.view_run x] at sameView
    exact ⟨inv, sameView⟩

/-! ### Coherence (R55) -/

/-- What keeps a Word readable at `a` through any other accesses: dirty lines are written back where they belong, and a clean
line that holds `a` may be dropped. -/
structure Holds (a v : Word) (s : State) : Prop where
  placed : DirtyPlaced s
  backed : ViewBacked s a
  word : view s a = v

theorem holds_cacheWrite {s : State} (h : DirtyPlaced s) (a v : Word) : Holds a v (cacheWrite a v s) where
  placed := dirtyPlaced_cacheWrite h a v
  backed _ := .inl (by rw [cacheWrite_line, if_pos rfl])
  word := view_cacheWrite_same a v s

/-- Any access but a write of `a` itself keeps the Word at `a`. -/
theorem Holds.run {a v : Word} {s : State} (h : Holds a v s) {x : Access} (other : ∀ w, x ≠ .write a w) :
    Holds a v (x.run s) := by
  have kept : ViewBacked (x.run s) a ∧ view (x.run s) a = view s a := by
    cases x with
    | read b => exact cacheRead_view h.placed b h.backed
    | write b w => exact cacheWrite_view h.placed b w (fun e => other w (e ▸ rfl)) h.backed
  exact ⟨dirtyPlaced_run h.placed x, kept.1, kept.2.trans h.word⟩

theorem Holds.transact {a v : Word} {xs : List Access} {s : State} (h : Holds a v s)
    (other : ∀ w, Access.write a w ∉ xs) : Holds a v (transact xs s) := by
  induction xs generalizing s with
  | nil => exact h
  | cons x xs ih =>
    exact ih (h.run fun w e => other w (e ▸ List.mem_cons_self)) fun w hm => other w (List.mem_cons_of_mem x hm)

/-- Settles O46: the write establishes `Holds`, the accesses between keep it, and a read returns the view. -/
theorem readReturnsLatestWrite : Obligations.ReadReturnsLatestWrite := by
  intro s a v xs placed other
  rw [cacheRead_fst]
  exact ((holds_cacheWrite placed a v).transact other).word

/-! ### The first use of line 31 (R54 (4)) -/

theorem lineInv_cacheWrite (a v : Word) (s : State) : lineInv (cacheWrite a v s) (lineIndex a) := by
  rw [lineInv, cacheWrite_line, if_pos rfl]
  exact .inl ⟨rfl, .inl rfl⟩

/-- A read miss fills its line with main memory's Word, which the write-back of the victim, at another address, leaves. -/
theorem lineInv_cacheRead_miss {a : Word} {s : State} (miss : ¬ resident s a) :
    lineInv (cacheRead a s).2 (lineIndex a) := by
  rw [lineInv, cacheRead_line, if_pos ⟨rfl, miss⟩]
  refine .inl ⟨rfl, .inr ?_⟩
  rw [memRead_cacheRead, if_neg fun e => miss e.2.2.symm]

/-- The weaker invariant is the whole one when line 31 meets its own clause. -/
theorem CacheInvButSentinel.cacheInv {s : State} (h : CacheInvButSentinel s) (line31 : lineInv s 31) : CacheInv s := by
  intro i
  rcases h i with inv | ⟨rfl, -⟩
  · exact inv
  · exact line31

/-- Settles O48: both accesses keep the weaker invariant and set line 31. -/
theorem sentinelLineHealed : Obligations.SentinelLineHealed := by
  intro s a v h onLine31
  refine ⟨fun miss => (butSentinel_cacheRead h a).cacheInv ?_, (butSentinel_cacheWrite h a v).cacheInv ?_⟩
  · exact onLine31 ▸ lineInv_cacheRead_miss miss
  · exact onLine31 ▸ lineInv_cacheWrite a v s

/-! ### A store at `PC` (R51) -/

/-- Settles O49: the stored Word is resident, so the fetch of the next step is a hit that returns it. -/
theorem fetchSeesStore : Obligations.FetchSeesStore := by
  intro s v running inMemory
  have fetched : transact [.read (cacheWrite s.pcWord v s).pcWord] (cacheWrite s.pcWord v s) =
      (cacheWrite s.pcWord v s).countHit := by
    rw [cacheWrite_pcWord]
    exact congrArg Prod.snd (cacheRead_hit (cacheWrite_resident s.pcWord v s))
  have word : view (cacheWrite s.pcWord v s) (cacheWrite s.pcWord v s).pcWord = v := by
    rw [cacheWrite_pcWord, view_cacheWrite_same]
  have running' : (cacheWrite s.pcWord v s).run = .running := by rw [cacheWrite_run, running]
  have inMemory' : (cacheWrite s.pcWord v s).pc.toNat ≤ 65535 := by rw [cacheWrite_pc]; exact inMemory
  cases hd : decode v with
  | some i =>
    rw [step_of_decode running' inMemory' (word.symm ▸ hd), fetched, cacheWrite_pc]
    simp only [State.countHit, cacheWrite_hits]
  | none =>
    rw [step_of_decode_none running' inMemory' (word.symm ▸ hd), fetched, word, cacheWrite_pc]
    simp only [State.countHit, cacheWrite_hits]

end Sys2Proof.Machine


/-! Reset and the loaded image (70_reset_and_hazards.md R140 to R142; the sentinel line, 20_memory.md R53, R54 (3)). -/

namespace Sys2Proof.Machine

/-! ### The lines and main memory after a reset -/

@[simp] theorem boot_line (img : List Word) (c : Word) (i : LineIndex) : (boot img c).line i = Line.reset c :=
  Vector.getElem_replicate i.isLt

theorem reset_eq_boot : State.reset = boot [] Config.lineResetContents := rfl

/-- Settles O53: the registers are read off the reset state, the lines off `boot_line`. -/
theorem resetValues : Obligations.ResetValues := by
  refine ⟨rfl, rfl, rfl, fun _ => rfl, fun i => ?_, rfl, rfl, rfl, rfl, rfl, rfl, reset_eq_boot⟩
  rw [reset_eq_boot, boot_line]
  exact ⟨rfl, rfl, rfl⟩

/-- An image laid out from address `a` reads as its Words from there, and as 0 elsewhere. -/
theorem Memory.read_ofImage (a b : Nat) (ws : List Word) :
    (Memory.ofImage a ws).read b = if b < a then 0#16 else (ws[b - a]?).getD 0#16 := by
  induction ws generalizing a with
  | nil => simp [Memory.ofImage]
  | cons w ws ih =>
    rcases Nat.lt_trichotomy b a with hlt | rfl | hgt
    · have below : b < a + 1 := by omega
      rw [Memory.ofImage_cons]
      split
      · rw [ih, if_pos below]
      · rw [Memory.read_cons, if_pos hlt]
    · rw [Memory.ofImage_cons]
      split
      next zero => rw [ih]; simp [zero]
      next => rw [Memory.read_cons]; simp
    · have shift : b - a = (b - (a + 1)) + 1 := by omega
      rw [shift, List.getElem?_cons_succ, if_neg (by omega), Memory.ofImage_cons]
      split
      · rw [ih, if_neg (by omega)]
      · rw [Memory.read_cons, ih, if_neg (by omega), if_neg (by omega), if_neg (by omega)]

/-- Settles O54: the load is the reset with the image exactly when it fits, and the memory is the image's. -/
theorem imageIsLoaded : Obligations.ImageIsLoaded := by
  refine fun img c => ⟨fun fits => ⟨boot img c, if_pos fits, rfl, fun a => ?_⟩, fun long => if_neg ?_⟩
  · exact (Memory.read_ofImage 0 a img).trans (if_neg (Nat.not_lt_zero a))
  · rw [Config.memWords]
    omega

/-! ### The sentinel line (R53) -/

theorem boot_resident_iff (img : List Word) (c a : Word) : resident (boot img c) a ↔ a = 65535#16 := by
  rw [resident, boot_line]
  exact eq_comm

/-- No line is dirty after a reset, so the first access writes nothing back. -/
theorem memRead_run_boot (img : List Word) (c : Word) (x : Access) (b : Word) :
    memRead b (x.run (boot img c)) = memRead b (boot img c) := by
  cases x with
  | read a => exact (memRead_cacheRead a b _).trans (if_neg fun e => by simpa [Line.reset] using e.2.1)
  | write a v => exact (memRead_cacheWrite a v b _).trans (if_neg fun e => by simpa [Line.reset] using e.2.1)

/-- An address that shares its line with the address of an access is not resident after it. -/
theorem not_resident_run {x : Access} {a : Word} (sameLine : lineIndex x.addr = lineIndex a) (other : x.addr ≠ a)
    (s : State) : ¬ resident (x.run s) a := by
  have h := run_resident x s
  rw [resident, sameLine] at h
  rw [resident, h]
  exact other

/-- Settles O47: every line holds the tag 65535 after a reset, so only that address is resident, until another address of its
line takes the line. -/
theorem sentinelLineAfterReset : Obligations.SentinelLineAfterReset := by
  intro img c
  have resident65535 := (boot_resident_iff img c 65535#16).2 rfl
  refine ⟨?_, fun a other => fun h => other ((boot_resident_iff img c a).1 h), fun x onLine31 other => ?_⟩
  · rw [cacheRead_hit resident65535, boot_line]
    rfl
  · have gone : ¬ resident (x.run (boot img c)) 65535#16 := not_resident_run onLine31 other _
    exact ⟨gone, (view_not_resident gone).trans (memRead_run_boot img c x _)⟩

/-! ### The invariants at reset -/

theorem lineIndex_tagSentinel : lineIndex Config.tagSentinel = 31 := by decide

/-- Every line but line 31 is in the clause of a line that holds no address of its own. -/
theorem lineInv_boot_of_ne {i : LineIndex} (img : List Word) (c : Word) (h : i ≠ 31) : lineInv (boot img c) i := by
  rw [lineInv, boot_line]
  exact .inr ⟨fun own => h (own.symm.trans lineIndex_tagSentinel), rfl, rfl⟩

/-- Line 31 holds the sentinel as an address of its own, clean, so its contents have to be main memory's. -/
theorem lineInv_boot_31_iff (img : List Word) (c : Word) :
    lineInv (boot img c) 31 ↔ c = (boot img c).mem.read 65535 := by
  rw [lineInv, boot_line]
  show _ ↔ c = memRead Config.tagSentinel (boot img c)
  simp [Line.reset, lineIndex_tagSentinel]

theorem cacheInv_boot_iff (img : List Word) (c : Word) : CacheInv (boot img c) ↔ c = (boot img c).mem.read 65535 := by
  rw [← lineInv_boot_31_iff]
  refine ⟨fun h => h 31, fun h i => ?_⟩
  by_cases hi : i = 31
  · exact hi ▸ h
  · exact lineInv_boot_of_ne img c hi

theorem butSentinel_boot (img : List Word) (c : Word) : CacheInvButSentinel (boot img c) := by
  intro i
  by_cases hi : i = 31
  · exact .inr ⟨hi, by rw [sentinelLine, boot_line]; exact ⟨rfl, rfl⟩⟩
  · exact .inl (lineInv_boot_of_ne img c hi)

/-- Settles O55: the registers and records by computation, the memory and the lines by the lemmas above. -/
theorem bootMeetsEveryInvariant : Obligations.BootMeetsEveryInvariant := by
  intro img c fits
  have registers : RegistersInRange (boot img c) := by
    simp [RegistersInRange, boot, State.reset, Config.pcReset, Config.spReset]
  have records : EndConsistent (boot img c) := by
    simp [EndConsistent, boot, State.reset]
  have noEvent : OutInRange (boot img c) := fun e he => absurd he List.not_mem_nil
  have noFault : FaultInRange (boot img c) := fun f hf => by cases hf
  exact ⟨registers, Memory.wf_ofImage fits, (butSentinel_boot img c).dirtyPlaced, butSentinel_boot img c, rfl, records,
    noEvent, noFault, cacheInv_boot_iff img c⟩

end Sys2Proof.Machine


/-! The arithmetic instructions (41_arithmetic.md R81 to R88): the laws of the results, then the exact next states. -/

namespace Sys2Proof.Machine

/-! ### The results as Words (R5, R86, R87) -/

theorem wrap16_add (i j : Int) : wrap16 (i + j) = wrap16 i + wrap16 j := BitVec.ofInt_add i j

theorem wrap16_mul (i j : Int) : wrap16 (i * j) = wrap16 i * wrap16 j := BitVec.ofInt_mul i j

theorem wrap16_sub (i j : Int) : wrap16 (i - j) = wrap16 i - wrap16 j := by
  rw [Int.sub_eq_add_neg, wrap16_add, BitVec.sub_eq_add_neg]
  exact congrArg _ BitVec.ofInt_neg

/-- Settles O18: `wrap16` is a homomorphism, and takes both readings of a Word back to the Word. -/
theorem addSubMultViewIndependent : Obligations.AddSubMultViewIndependent := by
  intro x y
  simp only [aluAdd, aluSub, aluMult, wrap16_add, wrap16_sub, wrap16_mul, wrap16_signed, wrap16_unsigned, and_self]

theorem signed_wrap16 {i : Int} (ge : -32768 ≤ i) (le : i ≤ 32767) : signed (wrap16 i) = i := by
  rw [signed_eq_toInt]
  exact BitVec.toInt_ofInt_eq_self (by decide) ge (by omega)

theorem signed_ne_zero {w : Word} (h : w ≠ 0#16) : signed w ≠ 0 := fun e =>
  h ((isZeroDivisor_iff w).1 (by rw [isZeroDivisor, e]; rfl))

/-- The remainder of the rounding toward zero has the dividend's sign. -/
theorem tmod_eq_zero_or_neg_iff (b a : Int) : b.tmod a = 0 ∨ (b.tmod a < 0 ↔ b < 0) := by
  have sign := Int.sign_tmod b a
  split at sign
  · exact .inl (Int.sign_eq_zero_iff_zero.1 sign)
  · right; rw [← Int.sign_eq_neg_one_iff_neg, sign, Int.sign_eq_neg_one_iff_neg]

/-- The one quotient of two value views that does not fit a Word is 32768, of -32768 by -1. -/
theorem tdiv_le_of_not_overflow {b a : Int} (ge : -32768 ≤ b) (le : b ≤ 32767) (fits : ¬ (b = -32768 ∧ a = -1)) :
    -32768 ≤ b.tdiv a ∧ b.tdiv a ≤ 32767 := by
  have abs_le := Int.natAbs_tdiv_le_natAbs b a
  refine ⟨by omega, ?_⟩
  by_contra big
  obtain rfl : b = -32768 := by omega
  have quotient : ((-32768 : Int).tdiv a).natAbs = 32768 / a.natAbs := Int.natAbs_tdiv (-32768) a
  have unit : a.natAbs = 1 := by
    by_contra notUnit
    have : a.natAbs = 0 ∨ 2 ≤ a.natAbs := by omega
    rcases this with zero | two
    · rw [zero] at quotient; omega
    · have := Nat.div_le_div_left (a := 32768) two (by decide)
      omega
  rcases Int.natAbs_eq_iff.1 unit with rfl | rfl
  · exact big (by decide)
  · exact fits ⟨rfl, rfl⟩

/-- Settles O17: the remainder is `Int.tmod`'s, and the quotient fits a Word but in the one case. -/
theorem divRoundsTowardZero : Obligations.DivRoundsTowardZero := by
  intro b a nonzero
  have remainder : signed b - aluDiv (signed b) (signed a) * signed a = (signed b).tmod (signed a) := by
    rw [aluDiv, Int.mul_comm, ← Int.tmod_def]
  refine ⟨?smaller, ?sign, ?quotient⟩
  case smaller =>
    rw [remainder, Int.natAbs_tmod]
    exact Nat.mod_lt _ (Int.natAbs_pos.2 (signed_ne_zero nonzero))
  case sign =>
    rw [remainder]
    exact tmod_eq_zero_or_neg_iff _ _
  case quotient =>
    split
    next overflow => rw [overflow.1, overflow.2]; decide
    next fits =>
      obtain ⟨ge, le⟩ := tdiv_le_of_not_overflow (signed_ge b) (signed_le b) fits
      exact signed_wrap16 ge le

/-! ### The exact next states (R81 to R85) -/

/-- The arithmetic instructions begin with two pops. -/
theorem exec_arithmetic {i : Instr} (h : i ∈ [Instr.add, .sub, .mult, .div]) :
    ∃ k : Word → Word → State → Micro Unit, ∀ s,
      exec i s = ((pop s).andThen fun a s => (pop s).andThen (k a)).outcome := by
  simp only [List.mem_cons, List.not_mem_nil, or_false] at h
  rcases h with rfl | rfl | rfl | rfl <;> exact ⟨_, fun _ => rfl⟩

/-- Settles O14: the first pop faults with nothing done, or the second at 65536 after one pop. -/
theorem arithmeticStackFaults : Obligations.ArithmeticStackFaults := by
  intro i hi s
  obtain ⟨k, exec_eq⟩ := exec_arithmetic hi
  refine ⟨fun empty => ?_, fun one => ?_⟩
  · rw [exec_eq, pop_fault empty]
    rfl
  · have past : (s.sp + 1#17).toNat = 65536 := by rw [toNat_ctrl_add_one (by omega), one]
    have info : ctrlInt (s.sp + 1#17) = 65536 := by rw [ctrlInt, past]; rfl
    rw [exec_eq, pop_andThen_ok (by omega), pop_fault (by rw [setSp_sp, past]; decide), setSp_sp, info]
    rfl

/-- The push that ends an arithmetic instruction: it writes over the second Word, and `SP` comes down by one of its two. -/
theorem push_after_pop_pop {s : State} (twoWords : s.sp.toNat ≤ 65534) (xs : List Access) (v : Word) :
    (push v ((transact xs s).setSp (s.sp + 2#17))).outcome =
      .next { transact (xs ++ [.write (s.spWord + 1#16) v]) s with sp := s.sp + 1#17 } := by
  have top : (s.sp + 2#17).toNat = s.sp.toNat + 2 := by
    rw [BitVec.toNat_add, BitVec.toNat_ofNat, Nat.mod_eq_of_lt (by decide : 2 < 2 ^ 17), Nat.mod_eq_of_lt (by omega)]
  have downByOne : s.sp + 2#17 - 1#17 = s.sp + 1#17 := by bv_omega
  have cell : ((transact xs s).setSp (s.sp + 2#17)).spWord - 1#16 = s.spWord + 1#16 := by
    rw [setSp_spWord, ← setWidth_pred, downByOne, setWidth_succ, setWidth_sp]
  rw [push_ok (by rw [setSp_sp, top]; omega) (by rw [setSp_sp, top]; omega), cell, cacheWrite_setSp, setSp_sp, downByOne,
    transact_concat]
  rfl

/-- ADD, SUB and MULT on two Words or more. -/
theorem binOp_ok {s : State} (twoWords : s.sp.toNat ≤ 65534) (f : Int → Int → Int) :
    (binOp f s).outcome = .next
      { transact [.read s.spWord, .read (s.spWord + 1#16), .write (s.spWord + 1#16)
          (wrap16 (f (signed (view (transact [.read s.spWord] s) (s.spWord + 1#16))) (signed (view s s.spWord))))] s with
        sp := s.sp + 1#17 } := by
  rw [binOp, pop_pop_andThen_ok twoWords]
  exact push_after_pop_pop twoWords _ _

/-- Settles O13: the three instructions differ in the ALU's operation only. -/
theorem addSubMultResult : Obligations.AddSubMultResult :=
  fun _ twoWords => ⟨binOp_ok twoWords aluAdd, binOp_ok twoWords aluSub, binOp_ok twoWords aluMult⟩

/-- Settles O15: with a divisor that is not 0 the zero test passes on to the push. -/
theorem divResult : Obligations.DivResult := by
  intro s twoWords nonzero
  have divisor : ¬ isZeroDivisor (view s s.spWord) = true := fun h => nonzero ((isZeroDivisor_iff _).1 h)
  rw [exec_div, pop_pop_andThen_ok twoWords, if_neg divisor]
  exact push_after_pop_pop twoWords _ _

end Sys2Proof.Machine


/-! Exact next states, continued: the step and the fault entry (40_cycle_halt_nop.md R70, R71; 60_exceptions.md R124),
HALT and PRINTI (R76, R101), the control transfers (42_control_transfer.md R91 to R93), and POPA and POPR (R113, R114). -/

namespace Sys2Proof.Machine

/-! ### The step, the fault entry and the checked accesses -/

/-- Settles O6: the fetch and the dispatch of a Word that decodes. -/
theorem stepRunsDecodedInstruction : Obligations.StepRunsDecodedInstruction :=
  fun _ _ running inMemory decoded => step_of_decode running inMemory decoded

/-- Settles O7: the fetch faults with `IADDR` latched. -/
theorem fetchBeyondMemoryFaults : Obligations.FetchBeyondMemoryFaults := by
  intro s running beyond
  rw [step_running running, runStep, fetchOpcode_fault beyond]
  rfl

/-- Settles O52: the fault entry is that record update, and it leaves a faulted engine. -/
theorem faultEntryRecordsAndStops : Obligations.FaultEntryRecordsAndStops :=
  fun c info s => ⟨rfl, step_faulted (raise_run s c info)⟩

/-- Settles O50: the two accesses inside the range and outside it. -/
theorem accessesAreRangeChecked : Obligations.AccessesAreRangeChecked :=
  fun _ v s => ⟨fun inRange => ⟨load_ok inRange.1 inRange.2 s, store_ok inRange.1 inRange.2 v s⟩,
    fun outside => ⟨load_fault outside s, store_fault outside v s⟩⟩

/-! ### HALT and PRINTI (R76, R101) -/

theorem exec_halt (s : State) :
    exec .halt s = ((load (ctrlInt s.sp) s).andThen fun r s => Micro.done () (s.haltWith r)).outcome := rfl

/-- Settles O12: the result read, which ends in `haltWith` or in its fault. -/
theorem haltReadsResult : Obligations.HaltReadsResult := by
  refine ⟨fun s nonempty => ?_, fun s empty => ?_⟩
  · rw [exec_halt, load_sp_ok nonempty]
    rfl
  · rw [exec_halt, load_sp_fault empty]
    rfl

theorem exec_printi (s : State) :
    exec .printi s = ((load (ctrlInt s.sp) s).andThen fun v s =>
      Micro.done () ((emit (.printInt (signed v)) s).setSp (s.sp + 1#17))).outcome := rfl

/-- Settles O26: one read, one event and the move of `SP`, or the read's fault. -/
theorem printiEmitsThenPops : Obligations.PrintiEmitsThenPops := by
  refine ⟨fun s nonempty => ?_, fun s empty => ?_⟩
  · rw [exec_printi, load_sp_ok nonempty, Micro.andThen_done, cacheRead_sp, emit, cacheRead_out]
    rfl
  · rw [exec_printi, load_sp_fault empty]
    rfl

/-! ### What transactions leave unchanged -/

/-- An element no cache access writes, no transactions write. -/
theorem transact_congr {α : Type} (f : State → α) (read : ∀ a s, f (cacheRead a s).2 = f s)
    (write : ∀ a v s, f (cacheWrite a v s) = f s) (xs : List Access) (s : State) : f (transact xs s) = f s := by
  induction xs generalizing s with
  | nil => rfl
  | cons x xs ih =>
    refine (ih (x.run s)).trans ?_
    cases x with
    | read a => exact read a s
    | write a v => exact write a v s

@[simp] theorem transact_pc (xs : List Access) (s : State) : (transact xs s).pc = s.pc :=
  transact_congr State.pc cacheRead_pc cacheWrite_pc xs s

@[simp] theorem transact_fp (xs : List Access) (s : State) : (transact xs s).fp = s.fp :=
  transact_congr State.fp cacheRead_fp cacheWrite_fp xs s

@[simp] theorem transact_fault (xs : List Access) (s : State) : (transact xs s).fault = s.fault :=
  transact_congr State.fault cacheRead_fault cacheWrite_fault xs s

@[simp] theorem transact_out (xs : List Access) (s : State) : (transact xs s).out = s.out :=
  transact_congr State.out cacheRead_out cacheWrite_out xs s

/-! ### Micro-steps after transactions and a move of `PC`

After its operand fetch an instruction runs from a state `(transact xs s).setPc x`. One more access is one more
transaction at the end of `xs`. -/

theorem cacheRead_transact (a : Word) (xs : List Access) (s : State) :
    (cacheRead a (transact xs s)).2 = transact (xs ++ [.read a]) s := (transact_concat xs (.read a) s).symm

theorem cacheWrite_transact (a v : Word) (xs : List Access) (s : State) :
    cacheWrite a v (transact xs s) = transact (xs ++ [.write a v]) s := (transact_concat xs (.write a v) s).symm

/-- The registers an instruction has assigned, over the state its transactions have left. -/
theorem setPc_setSp_eq (u : State) (x y : Ctrl) : (u.setPc x).setSp y = { u with pc := x, sp := y } := rfl

theorem setPc_setPc (u : State) (x y : Ctrl) : (u.setPc x).setPc y = u.setPc y := rfl

theorem setSp_setPc (u : State) (x y : Ctrl) : (u.setSp x).setPc y = (u.setPc y).setSp x := rfl

theorem setPc_setSp_setFp_eq (u : State) (x y : Ctrl) (z : Word) :
    ((u.setPc x).setSp y).setFp z = { u with pc := x, sp := y, fp := z } := rfl

section AfterTransactions

variable (s : State) (xs : List Access) (x : Ctrl)

theorem load_after_transact {n : Int} (nonneg : 0 ≤ n) (le : n ≤ 65535) :
    load n ((transact xs s).setPc x) =
      .done (view (transact xs s) (wrap16 n)) ((transact (xs ++ [.read (wrap16 n)]) s).setPc x) := by
  rw [load_ok nonneg le, cacheRead_setPc, view_setPc, transact_concat]
  rfl

theorem load_sp_after_transact (nonempty : s.sp.toNat ≤ 65535) :
    load (ctrlInt s.sp) ((transact xs s).setPc x) =
      .done (view (transact xs s) s.spWord) ((transact (xs ++ [.read s.spWord]) s).setPc x) := by
  rw [load_after_transact s xs x (ctrlInt_nonneg _) (by unfold ctrlInt; omega), wrap16_sp]

theorem pop_after_transact (nonempty : s.sp.toNat ≤ 65535) :
    pop ((transact xs s).setPc x) =
      .done (view (transact xs s) s.spWord) (((transact (xs ++ [.read s.spWord]) s).setPc x).setSp (s.sp + 1#17)) := by
  rw [pop_ok (by rw [setPc_sp, transact_sp]; exact nonempty), setPc_spWord, transact_spWord, view_setPc, cacheRead_setPc,
    setPc_sp, transact_sp, transact_concat]
  rfl

theorem pop_after_transact_fault (empty : 65535 < s.sp.toNat) :
    pop ((transact xs s).setPc x) = .raised (raise .addressRange (ctrlInt s.sp) { transact xs s with pc := x }) := by
  rw [pop_fault (by rw [setPc_sp, transact_sp]; exact empty), setPc_sp, transact_sp]
  rfl

theorem push_after_transact (y : Ctrl) (v : Word) (room : 1 ≤ y.toNat) (inStack : y.toNat ≤ 65536) :
    push v (((transact xs s).setPc x).setSp y) =
      .done () (((transact (xs ++ [.write (y.setWidth 16 - 1#16) v]) s).setPc x).setSp (y - 1#17)) := by
  rw [push_ok room inStack, setSp_spWord, cacheWrite_setSp, cacheWrite_setPc, setSp_sp, transact_concat]
  rfl

end AfterTransactions

/-! ### JEQ (R91) -/

theorem exec_jeq (s : State) :
    exec .jeq s = ((pop s).andThen fun v s =>
      if isZeroWord v then (load (ctrlInt s.pc) s).andThen fun t s => Micro.done () (s.setPc (wordToCtrl t))
      else Micro.done () (s.setPc (s.pc + 1#17))).outcome := rfl

theorem exec_jeq_empty {s : State} (empty : 65535 < s.sp.toNat) :
    exec .jeq s = .next (raise .addressRange (ctrlInt s.sp) s) := by
  rw [exec_jeq, pop_fault empty]
  rfl

section JeqNonempty

variable {s : State} (nonempty : s.sp.toNat ≤ 65535)
include nonempty

theorem exec_jeq_not_taken (notZero : view s s.spWord ≠ 0#16) :
    exec .jeq s = .next { transact [.read s.spWord] s with sp := s.sp + 1#17, pc := s.pc + 1#17 } := by
  rw [exec_jeq, pop_andThen_ok nonempty, if_neg (fun h => notZero ((isZeroWord_iff _).1 h)), setSp_pc, transact_pc]
  rfl

/-- A taken JEQ comes to the load of its operand, at the `PC` the pop has left alone. -/
theorem exec_jeq_zero (zero : view s s.spWord = 0#16) :
    exec .jeq s = ((load (ctrlInt s.pc) ((transact [.read s.spWord] s).setSp (s.sp + 1#17))).andThen
      fun t s => Micro.done () (s.setPc (wordToCtrl t))).outcome := by
  rw [exec_jeq, pop_andThen_ok nonempty, if_pos ((isZeroWord_iff _).2 zero), setSp_pc, transact_pc]

theorem exec_jeq_taken (zero : view s s.spWord = 0#16) (inMemory : s.pc.toNat ≤ 65535) :
    exec .jeq s = .next { transact [.read s.spWord, .read s.pcWord] s with
      sp := s.sp + 1#17, pc := (view (transact [.read s.spWord] s) s.pcWord).setWidth 17 } := by
  rw [exec_jeq_zero nonempty zero, load_ok (ctrlInt_nonneg _) (by unfold ctrlInt; omega), wrap16_pc, view_setSp,
    cacheRead_setSp, cacheRead_transact, Micro.andThen_done, setSp_setPc, setPc_setSp_eq]
  simp only [List.cons_append, List.nil_append, Micro.outcome_done, wordToCtrl]

theorem exec_jeq_taken_fault (zero : view s s.spWord = 0#16) (pastEnd : 65535 < s.pc.toNat) :
    exec .jeq s = .next (raise .addressRange (ctrlInt s.pc) { transact [.read s.spWord] s with sp := s.sp + 1#17 }) := by
  rw [exec_jeq_zero nonempty zero, load_fault (.inr (by unfold ctrlInt; omega))]
  rfl

end JeqNonempty

/-- Settles O20: the pop faults or gives the tested Word, and a taken branch reads its operand or faults. -/
theorem jeqPopsThenBranches : Obligations.JeqPopsThenBranches :=
  ⟨fun _ nonempty zero inMemory => exec_jeq_taken nonempty zero inMemory,
    fun _ nonempty notZero => exec_jeq_not_taken nonempty notZero, fun _ empty => exec_jeq_empty empty,
    fun _ nonempty zero pastEnd => exec_jeq_taken_fault nonempty zero pastEnd⟩

/-! ### CALL (R92) -/

theorem exec_call (s : State) :
    exec .call s = ((fetchOperand s).andThen fun t s => (checkAddr (ctrlInt s.pc) s).andThen fun _ s =>
      (push (wrap16 (ctrlInt s.pc)) s).andThen fun _ s => (push s.fp s).andThen fun _ s =>
        Micro.done () ((s.setPc (wordToCtrl t)).setFp (wrap16 (ctrlInt s.sp)))).outcome := rfl

/-- The return-address check of a CALL at the last address (D16). -/
theorem exec_call_no_return_address {s : State} (last : s.pc.toNat = 65535) :
    exec .call s = .next (raise .addressRange 65536 { transact [.read s.pcWord] s with pc := s.pc + 1#17 }) := by
  have info : ctrlInt (s.pc + 1#17) = 65536 := by rw [ctrlInt, toNat_ctrl_add_one (by omega), last]; rfl
  rw [exec_call, fetchOperand_andThen_ok (by omega), setPc_pc, info, checkAddr_fault (.inr (by decide))]
  rfl

section CallReturnAddress

variable {s : State} (inMemory : s.pc.toNat ≤ 65534)
include inMemory

/-- With a return address, CALL comes to its two pushes. -/
theorem exec_call_pushes :
    exec .call s = ((push (s.pcWord + 1#16) ((transact [.read s.pcWord] s).setPc (s.pc + 1#17))).andThen
      fun _ u => (push u.fp u).andThen fun _ u =>
        Micro.done () ((u.setPc (wordToCtrl (view s s.pcWord))).setFp (wrap16 (ctrlInt u.sp)))).outcome := by
  have next : (s.pc + 1#17).toNat = s.pc.toNat + 1 := toNat_ctrl_add_one (by omega)
  rw [exec_call, fetchOperand_andThen_ok (by omega), setPc_pc,
    checkAddr_ok (ctrlInt_nonneg _) (by unfold ctrlInt; omega), Micro.andThen_done, wrap16_ctrlInt, setPc_pc,
    setWidth_succ, setWidth_pc]

/-- With room for the return address too, CALL comes to the push of the caller's `FP`. -/
theorem exec_call_second_push (room : 1 ≤ s.sp.toNat) (inStack : s.sp.toNat ≤ 65536) :
    exec .call s = ((push s.fp (((transact [.read s.pcWord, .write (s.spWord - 1#16) (s.pcWord + 1#16)] s).setPc
        (s.pc + 1#17)).setSp (s.sp - 1#17))).andThen fun _ u =>
      Micro.done () ((u.setPc (wordToCtrl (view s s.pcWord))).setFp (wrap16 (ctrlInt u.sp)))).outcome := by
  have sameSp : (transact [.read s.pcWord] s).setPc (s.pc + 1#17) =
      ((transact [.read s.pcWord] s).setPc (s.pc + 1#17)).setSp s.sp := by
    rw [← transact_sp [.read s.pcWord] s]; rfl
  rw [exec_call_pushes inMemory, sameSp, push_after_transact _ _ _ _ _ room inStack, Micro.andThen_done, setSp_fp, setPc_fp,
    transact_fp, setWidth_sp, List.cons_append, List.nil_append]

theorem exec_call_no_room (full : s.sp.toNat = 0) :
    exec .call s = .next (raise .addressRange (-1) { transact [.read s.pcWord] s with pc := s.pc + 1#17 }) := by
  rw [exec_call_pushes inMemory, push_empty_fault (by rw [setPc_sp, transact_sp, full])]
  rfl

theorem exec_call_room_for_one (one : s.sp.toNat = 1) :
    exec .call s = .next (raise .addressRange (-1)
      { transact [.read s.pcWord, .write 0#16 (s.pcWord + 1#16)] s with pc := s.pc + 1#17, sp := 0#17 }) := by
  have sp : s.sp = 1#17 := BitVec.eq_of_toNat_eq one
  have cell : s.spWord - 1#16 = 0#16 := by rw [State.spWord, sp]; rfl
  have top : s.sp - 1#17 = 0#17 := by rw [sp]; rfl
  rw [exec_call_second_push inMemory (by omega) (by omega), cell, top, push_empty_fault (by rw [setSp_sp]; rfl),
    Micro.andThen_raised, Micro.outcome_raised, setPc_setSp_eq]

theorem exec_call_ok (room : 2 ≤ s.sp.toNat) (inStack : s.sp.toNat ≤ 65536) :
    exec .call s = .next
      { transact [.read s.pcWord, .write (s.spWord - 1#16) (s.pcWord + 1#16), .write (s.spWord - 2#16) s.fp] s with
        pc := (view s s.pcWord).setWidth 17, sp := s.sp - 2#17, fp := s.spWord - 2#16 } := by
  have below : (s.sp - 1#17).toNat = s.sp.toNat - 1 := toNat_pred (by omega)
  have twoDown : s.sp - 1#17 - 1#17 = s.sp - 2#17 := by bv_omega
  have twoDownWord : s.spWord - 1#16 - 1#16 = s.spWord - 2#16 := by bv_omega
  have newFp : wrap16 (ctrlInt (s.sp - 2#17)) = s.spWord - 2#16 := by
    rw [wrap16_ctrlInt, ← twoDown, setWidth_pred, setWidth_pred, setWidth_sp, twoDownWord]
  rw [exec_call_second_push inMemory (by omega) inStack, push_after_transact _ _ _ _ _ (by omega) (by omega), setWidth_pred,
    setWidth_sp, twoDownWord, twoDown, Micro.andThen_done, setSp_sp, newFp, setSp_setPc, setPc_setPc,
    setPc_setSp_setFp_eq]
  simp only [List.cons_append, List.nil_append, Micro.outcome_done, wordToCtrl]

end CallReturnAddress

/-- Settles O21: the operand lies in memory, and each of the two pushes has a cell below `SP`. -/
theorem callPushesFrame : Obligations.CallPushesFrame :=
  fun _ inMemory room inStack => exec_call_ok inMemory room inStack

/-- Settles O22: the operand fetch, the return-address check and the two pushes, each of which may fault. -/
theorem callFaults : Obligations.CallFaults :=
  fun _ => ⟨fun pastEnd => fetchOperand_andThen_fault pastEnd _, exec_call_no_return_address, exec_call_no_room,
    exec_call_room_for_one⟩

/-! ### RETURN (R93) -/

theorem exec_ret (s : State) :
    exec .ret s = ((fetchOperand s).andThen fun off s => (load (ctrlInt s.sp) s).andThen fun v s =>
      (load (unsigned s.fp + 1) s).andThen fun rpc s => (load (unsigned s.fp) s).andThen fun rfp s =>
        (store (frameAddr s.fp off) v s).andThen fun _ s =>
          Micro.done () (((s.setPc (wordToCtrl rpc)).setSp (toCtrl (frameAddr s.fp off))).setFp rfp)).outcome := rfl

section ReturnOperand

variable {s : State} (inMemory : s.pc.toNat ≤ 65535)
include inMemory

theorem exec_ret_empty (empty : 65535 < s.sp.toNat) :
    exec .ret s = .next (raise .addressRange (ctrlInt s.sp) { transact [.read s.pcWord] s with pc := s.pc + 1#17 }) := by
  rw [exec_ret, fetchOperand_andThen_ok inMemory, setPc_sp, transact_sp,
    load_fault (.inr (by unfold ctrlInt; omega))]
  rfl

variable (nonempty : s.sp.toNat ≤ 65535)
include nonempty

/-- With a return value, RETURN comes to the reads of the frame and the store. -/
theorem exec_ret_frame :
    exec .ret s = ((load (unsigned s.fp + 1)
        ((transact [.read s.pcWord, .read s.spWord] s).setPc (s.pc + 1#17))).andThen fun rpc u =>
      (load (unsigned u.fp) u).andThen fun rfp u =>
        (store (frameAddr u.fp (view s s.pcWord)) (view (transact [.read s.pcWord] s) s.spWord) u).andThen fun _ u =>
          Micro.done ()
            (((u.setPc (wordToCtrl rpc)).setSp (toCtrl (frameAddr u.fp (view s s.pcWord)))).setFp rfp)).outcome := by
  rw [exec_ret, fetchOperand_andThen_ok inMemory, setPc_sp, transact_sp, load_sp_after_transact _ _ _ nonempty,
    Micro.andThen_done, setPc_fp, transact_fp, List.cons_append, List.nil_append]

theorem exec_ret_no_frame (last : s.fp = 65535#16) :
    exec .ret s = .next (raise .addressRange 65536
      { transact [.read s.pcWord, .read s.spWord] s with pc := s.pc + 1#17 }) := by
  have info : unsigned s.fp + 1 = 65536 := by rw [last]; rfl
  rw [exec_ret_frame inMemory nonempty, info, load_fault (.inr (by decide))]
  rfl

variable (frame : s.fp.toNat ≤ 65534)
include frame

/-- With a whole frame, RETURN comes to the store at `FP + offset`. -/
theorem exec_ret_store :
    exec .ret s = ((store (frameAddr s.fp (view s s.pcWord)) (view (transact [.read s.pcWord] s) s.spWord)
        ((transact [.read s.pcWord, .read s.spWord, .read (s.fp + 1#16), .read s.fp] s).setPc (s.pc + 1#17))).andThen
      fun _ u => Micro.done () (((u.setPc
          (wordToCtrl (view (transact [.read s.pcWord, .read s.spWord] s) (s.fp + 1#16)))).setSp
          (toCtrl (frameAddr u.fp (view s s.pcWord)))).setFp
          (view (transact [.read s.pcWord, .read s.spWord, .read (s.fp + 1#16)] s) s.fp))).outcome := by
  have nonneg := unsigned_nonneg s.fp
  have le := unsigned_le s.fp
  have leFrame : unsigned s.fp + 1 ≤ 65535 := by unfold unsigned; omega
  rw [exec_ret_frame inMemory nonempty, load_after_transact _ _ _ (by omega) leFrame, wrap16_add_one, wrap16_unsigned,
    Micro.andThen_done, setPc_fp, transact_fp, load_after_transact _ _ _ nonneg le, wrap16_unsigned, Micro.andThen_done,
    setPc_fp, transact_fp]
  simp only [List.cons_append, List.nil_append]

theorem exec_ret_ok (ge : 0 ≤ frameAddr s.fp (view s s.pcWord)) (le : frameAddr s.fp (view s s.pcWord) ≤ 65535) :
    exec .ret s = .next
      { transact [.read s.pcWord, .read s.spWord, .read (s.fp + 1#16), .read s.fp,
          .write (wrap16 (frameAddr s.fp (view s s.pcWord))) (view (transact [.read s.pcWord] s) s.spWord)] s with
        pc := (view (transact [.read s.pcWord, .read s.spWord] s) (s.fp + 1#16)).setWidth 17
        sp := toCtrl (frameAddr s.fp (view s s.pcWord))
        fp := view (transact [.read s.pcWord, .read s.spWord, .read (s.fp + 1#16)] s) s.fp } := by
  rw [exec_ret_store inMemory nonempty frame, store_ok ge le, Micro.andThen_done, cacheWrite_fp, setPc_fp, transact_fp,
    cacheWrite_setPc, cacheWrite_transact, setPc_setPc, setPc_setSp_setFp_eq]
  simp only [List.cons_append, List.nil_append, Micro.outcome_done, wordToCtrl]

theorem exec_ret_store_fault
    (outside : frameAddr s.fp (view s s.pcWord) < 0 ∨ 65535 < frameAddr s.fp (view s s.pcWord)) :
    exec .ret s = .next (raise .addressRange (frameAddr s.fp (view s s.pcWord))
      { transact [.read s.pcWord, .read s.spWord, .read (s.fp + 1#16), .read s.fp] s with pc := s.pc + 1#17 }) := by
  rw [exec_ret_store inMemory nonempty frame, store_fault outside]
  rfl

end ReturnOperand

/-- Settles O23: after the four reads the store completes or faults. -/
theorem returnRestoresFrame : Obligations.ReturnRestoresFrame :=
  fun _ inMemory nonempty frame => ⟨exec_ret_ok inMemory nonempty frame, exec_ret_store_fault inMemory nonempty frame⟩

/-- Settles O24: the first three reads, each of which may fault. -/
theorem returnEarlyFaults : Obligations.ReturnEarlyFaults :=
  fun _ => ⟨fun pastEnd => fetchOperand_andThen_fault pastEnd _, exec_ret_empty, exec_ret_no_frame⟩

/-! ### POPA and POPR (R113, R114) -/

theorem exec_popa (s : State) :
    exec .popa s =
      ((fetchOperand s).andThen fun t s => (pop s).andThen fun v s => store (unsigned t) v s).outcome := rfl

theorem exec_popr (s : State) :
    exec .popr s =
      ((fetchOperand s).andThen fun off s => (pop s).andThen fun v s => store (frameAddr s.fp off) v s).outcome := rfl

section PopOperand

variable {s : State} (inMemory : s.pc.toNat ≤ 65535)
include inMemory

theorem exec_popa_empty (empty : 65535 < s.sp.toNat) :
    exec .popa s = .next (raise .addressRange (ctrlInt s.sp) { transact [.read s.pcWord] s with pc := s.pc + 1#17 }) := by
  rw [exec_popa, fetchOperand_andThen_ok inMemory, pop_after_transact_fault _ _ _ empty]
  rfl

theorem exec_popr_empty (empty : 65535 < s.sp.toNat) :
    exec .popr s = .next (raise .addressRange (ctrlInt s.sp) { transact [.read s.pcWord] s with pc := s.pc + 1#17 }) := by
  rw [exec_popr, fetchOperand_andThen_ok inMemory, pop_after_transact_fault _ _ _ empty]
  rfl

variable (nonempty : s.sp.toNat ≤ 65535)
include nonempty

/-- The store of POPA is at a Word's address, so it cannot fault. -/
theorem exec_popa_ok :
    exec .popa s = .next
      { transact [.read s.pcWord, .read s.spWord, .write (view s s.pcWord) (view (transact [.read s.pcWord] s) s.spWord)] s
        with pc := s.pc + 1#17, sp := s.sp + 1#17 } := by
  rw [exec_popa, fetchOperand_andThen_ok inMemory, pop_after_transact _ _ _ nonempty, Micro.andThen_done, store_word,
    cacheWrite_setSp, cacheWrite_setPc, cacheWrite_transact, setPc_setSp_eq]
  simp only [List.cons_append, List.nil_append, Micro.outcome_done]

/-- With its operand in memory and a Word to pop, POPR comes to the store at `FP + offset`. -/
theorem exec_popr_store :
    exec .popr s = (store (frameAddr s.fp (view s s.pcWord)) (view (transact [.read s.pcWord] s) s.spWord)
      (((transact [.read s.pcWord, .read s.spWord] s).setPc (s.pc + 1#17)).setSp (s.sp + 1#17))).outcome := by
  rw [exec_popr, fetchOperand_andThen_ok inMemory, pop_after_transact _ _ _ nonempty, Micro.andThen_done, setSp_fp, setPc_fp,
    transact_fp]
  simp only [List.cons_append, List.nil_append]

theorem exec_popr_ok (ge : 0 ≤ frameAddr s.fp (view s s.pcWord)) (le : frameAddr s.fp (view s s.pcWord) ≤ 65535) :
    exec .popr s = .next
      { transact [.read s.pcWord, .read s.spWord,
          .write (wrap16 (frameAddr s.fp (view s s.pcWord))) (view (transact [.read s.pcWord] s) s.spWord)] s with
        pc := s.pc + 1#17, sp := s.sp + 1#17 } := by
  rw [exec_popr_store inMemory nonempty, store_ok ge le, cacheWrite_setSp, cacheWrite_setPc, cacheWrite_transact,
    setPc_setSp_eq]
  simp only [List.cons_append, List.nil_append, Micro.outcome_done]

theorem exec_popr_store_fault
    (outside : frameAddr s.fp (view s s.pcWord) < 0 ∨ 65535 < frameAddr s.fp (view s s.pcWord)) :
    exec .popr s = .next (raise .addressRange (frameAddr s.fp (view s s.pcWord))
      { transact [.read s.pcWord, .read s.spWord] s with pc := s.pc + 1#17, sp := s.sp + 1#17 }) := by
  rw [exec_popr_store inMemory nonempty, store_fault outside, setPc_setSp_eq, Micro.outcome_raised]

end PopOperand

/-- Settles O32: the operand fetch and the pop may fault, the store may not. -/
theorem popaStoresTop : Obligations.PopaStoresTop :=
  ⟨fun _ inMemory => ⟨exec_popa_ok inMemory, exec_popa_empty inMemory⟩,
    fun _ pastEnd => fetchOperand_andThen_fault pastEnd _⟩

/-- Settles O33: the operand fetch, the pop and the store may fault, in this order. -/
theorem poprStoresTopInFrame : Obligations.PoprStoresTopInFrame :=
  ⟨fun _ inMemory => ⟨exec_popr_ok inMemory, exec_popr_store_fault inMemory, exec_popr_empty inMemory⟩,
    fun _ pastEnd => fetchOperand_andThen_fault pastEnd _⟩

end Sys2Proof.Machine


/-! Frames and invariants of every step: the memory system's invariants and counters (20_memory.md R38, R54, R56), which
instruction writes which register (10_state.md R12 to R24), how an instruction and a step end (R70), and the ranges of the
registers and the records (R24, R27, R120). -/

namespace Sys2Proof.Machine

/-! ### Properties of the memory system -/

/-- A property of the lines, main memory and the counters that the two cache operations keep is kept by every step: nothing
else of a step writes them. -/
theorem step_keeps_of_congr {P : State → Prop} (read : ∀ a s, P s → P (cacheRead a s).2)
    (write : ∀ a v s, P s → P (cacheWrite a v s))
    (congr : ∀ {s t : State}, t.cache = s.cache → t.mem = s.mem → t.counters = s.counters → P s → P t)
    {s t : State} (h : P s) (e : step s = .next t) : P t := by
  refine step_keeps (P := P) (fun i => ?_) (fun _ _ => congr rfl rfl rfl) (fun _ _ _ => congr rfl rfl rfl) h e
  exact {
    read := read
    write := fun _ => write
    setPc := fun _ _ _ => congr rfl rfl rfl
    setSp := fun _ _ _ _ => congr rfl rfl rfl
    setFp := fun _ _ _ => congr rfl rfl rfl
    emit := fun _ _ _ _ => congr rfl rfl rfl
    raise := fun _ _ _ _ => congr rfl rfl rfl
    halt := fun _ _ _ => congr rfl rfl rfl }

theorem line_congr {s t : State} (h : t.cache = s.cache) (i : LineIndex) : t.line i = s.line i := by
  rw [State.line, State.line]; simp only [h]

theorem lineInv_congr {s t : State} (cache : t.cache = s.cache) (mem : t.mem = s.mem) {i : LineIndex} (h : lineInv s i) :
    lineInv t i := by
  rw [lineInv, line_congr cache, memRead, mem]
  exact h

theorem butSentinel_congr {s t : State} (cache : t.cache = s.cache) (mem : t.mem = s.mem) (h : CacheInvButSentinel s) :
    CacheInvButSentinel t := fun i => (h i).imp (lineInv_congr cache mem) fun h31 => by
  rw [sentinelLine, line_congr cache]
  exact h31

theorem dirtyPlaced_congr {s t : State} (cache : t.cache = s.cache) (h : DirtyPlaced s) : DirtyPlaced t := fun i => by
  rw [line_congr cache]
  exact h i

/-- Settles O57: both cache operations keep each of the four, by the lemmas of the view. -/
theorem stepKeepsMemoryInvariants : Obligations.StepKeepsMemoryInvariants := by
  refine fun s t e => ⟨fun h => ?_, fun h => ?_, fun h => ?_, fun h => ?_⟩
  · exact step_keeps_of_congr (P := CacheInv) (fun a _ h => cacheInv_cacheRead h a)
      (fun a v _ h => cacheInv_cacheWrite h a v) (fun cache mem _ h i => lineInv_congr cache mem (h i)) h e
  · exact step_keeps_of_congr (P := CacheInvButSentinel) (fun a _ h => butSentinel_cacheRead h a)
      (fun a v _ h => butSentinel_cacheWrite h a v) (fun cache mem _ => butSentinel_congr cache mem) h e
  · exact step_keeps_of_congr (P := DirtyPlaced) (fun a _ h => dirtyPlaced_cacheRead h a)
      (fun a v _ h => dirtyPlaced_cacheWrite h a v) (fun cache _ _ => dirtyPlaced_congr cache) h e
  · exact step_keeps_of_congr (P := fun u => u.mem.wf) (fun a _ h => wf_cacheRead h a) (fun a v _ h => wf_cacheWrite h a v)
      (fun _ mem _ h => mem ▸ h) h e

/-- The counters of `t` are those of `s` after some accesses: none is lower, and the misses and the main-memory reads have
grown by the same number. -/
structure CountsOn (s t : State) : Prop where
  hits : s.hits ≤ t.hits
  misses : s.misses ≤ t.misses
  memWrites : s.memWrites ≤ t.memWrites
  reads : t.memReads + s.misses = s.memReads + t.misses

theorem CountsOn.cacheRead {s t : State} (h : CountsOn s t) (a : Word) : CountsOn s (cacheRead a t).2 := by
  obtain ⟨hits, misses, memWrites, reads⟩ := h
  have counts := cacheRead_counts a t
  have writes := cacheRead_memWrites a t
  constructor <;> omega

theorem CountsOn.cacheWrite {s t : State} (h : CountsOn s t) (a v : Word) : CountsOn s (cacheWrite a v t) where
  hits := by rw [cacheWrite_hits]; exact h.hits
  misses := by rw [cacheWrite_misses]; exact h.misses
  memWrites := by
    have := h.memWrites
    have := cacheWrite_memWrites a v t
    omega
  reads := by rw [cacheWrite_memReads, cacheWrite_misses]; exact h.reads

theorem CountsOn.congr {s t u : State} (same : u.counters = t.counters) (h : CountsOn s t) : CountsOn s u := by
  simp only [State.counters, Counters.mk.injEq] at same
  obtain ⟨memReads, memWrites, hits, misses⟩ := same
  constructor
  · rw [hits]; exact h.hits
  · rw [misses]; exact h.misses
  · rw [memWrites]; exact h.memWrites
  · rw [memReads, misses]; exact h.reads

/-- Settles O58: the counters of the next state are the present ones after the step's accesses. -/
theorem stepKeepsMissesEqualReads : Obligations.StepKeepsMissesEqualReads := by
  intro s t e
  have self : CountsOn s s := ⟨Nat.le_refl _, Nat.le_refl _, Nat.le_refl _, rfl⟩
  obtain ⟨hits, misses, memWrites, reads⟩ := step_keeps_of_congr (P := CountsOn s) (fun a _ h => h.cacheRead a)
    (fun a v _ h => h.cacheWrite a v) (fun _ _ same => CountsOn.congr same) self e
  exact ⟨fun h => by omega, hits, misses, by omega, memWrites⟩

/-! ### Which instruction writes which register (R12 to R24) -/

/-- An element of the state that none of the operations of instruction `i` writes. -/
theorem kept_field {α : Type} {i : Instr} (f : State → α) (x : α) (read : ∀ a s, f (cacheRead a s).2 = f s)
    (write : ∀ a v s, f (cacheWrite a v s) = f s) (setPc : ∀ s v, f (s.setPc v) = f s)
    (setSp : i ∉ [Instr.halt, .nop, .jmp, .prints] → ∀ s v, f (s.setSp v) = f s)
    (setFp : i ∈ [Instr.call, .ret] → ∀ s v, f (s.setFp v) = f s)
    (emit : i ∈ [Instr.printi, .prints] → ∀ s e, f (emit e s) = f s) (raise : ∀ s c n, f (raise c n s) = f s)
    (halt : i = .halt → ∀ s r, f (s.haltWith r) = f s) : Kept i (fun t => f t = x) where
  read a s h := (read a s).trans h
  write _ a v s h := (write a v s).trans h
  setPc v s _ h := (setPc s v).trans h
  setSp hi v s _ h := (setSp hi s v).trans h
  setFp hi v s h := (setFp hi s v).trans h
  emit hi e s _ h := (emit hi s e).trans h
  raise c n s _ h := (raise s c n).trans h
  halt hi r s h := (halt hi s r).trans h

theorem kept_iaddr (i : Instr) (x : Ctrl) : Kept i (fun t => t.iaddr = x) :=
  kept_field State.iaddr x cacheRead_iaddr cacheWrite_iaddr setPc_iaddr (fun _ => setSp_iaddr) (fun _ => setFp_iaddr)
    (fun _ => emit_iaddr) raise_iaddr (fun _ _ _ => rfl)

theorem kept_fp {i : Instr} (hi : i ∉ [Instr.call, .ret]) (x : Word) : Kept i (fun t => t.fp = x) :=
  kept_field State.fp x cacheRead_fp cacheWrite_fp setPc_fp (fun _ => setSp_fp) (fun h => absurd h hi) (fun _ => emit_fp)
    raise_fp (fun _ _ _ => rfl)

theorem kept_sp {i : Instr} (hi : i ∈ [Instr.halt, .nop, .jmp, .prints]) (x : Ctrl) : Kept i (fun t => t.sp = x) :=
  kept_field State.sp x cacheRead_sp cacheWrite_sp setPc_sp (fun h => absurd hi h) (fun _ => setFp_sp) (fun _ => emit_sp)
    raise_sp (fun _ _ _ => rfl)

theorem kept_result {i : Instr} (hi : i ≠ .halt) (x : Option Word) : Kept i (fun t => t.result = x) :=
  kept_field State.result x cacheRead_result cacheWrite_result setPc_result (fun _ => setSp_result) (fun _ => setFp_result)
    (fun _ => emit_result) raise_result (fun h => absurd h hi)

theorem kept_out {i : Instr} (hi : i ∉ [Instr.printi, .prints]) (x : List Event) : Kept i (fun t => t.out = x) :=
  kept_field State.out x cacheRead_out cacheWrite_out setPc_out (fun _ => setSp_out) (fun _ => setFp_out)
    (fun h => absurd h hi) raise_out (fun _ _ _ => rfl)

/-- `OUT` is only ever appended to. -/
theorem kept_out_grows (i : Instr) (x : List Event) : Kept i (fun t => x <+: t.out) where
  read a s h := by rw [cacheRead_out]; exact h
  write _ a v s h := by rw [cacheWrite_out]; exact h
  setPc _ _ _ h := h
  setSp _ _ _ _ h := h
  setFp _ _ _ h := h
  emit _ e s _ h := h.trans (List.prefix_append s.out [e])
  raise _ _ _ _ h := h
  halt _ _ _ h := h

/-! ### How an instruction ends (R70, R76, R124) -/

/-- The records after an instruction that is not HALT: as they were, or those of a fault entry. -/
def SameOrFaulted (s t : State) : Prop :=
  t.iaddr = s.iaddr ∧ t.result = s.result ∧
    ((t.run = s.run ∧ t.fault = s.fault) ∨ (t.run = .faulted ∧ ∃ f, t.fault = some f ∧ f.iaddr = s.iaddr))

theorem SameOrFaulted.congr {s t u : State} (iaddr : u.iaddr = t.iaddr) (result : u.result = t.result)
    (run : u.run = t.run) (fault : u.fault = t.fault) (h : SameOrFaulted s t) : SameOrFaulted s u := by
  rw [SameOrFaulted, iaddr, result, run, fault]
  exact h

theorem kept_sameOrFaulted {i : Instr} (hi : i ≠ .halt) (s : State) : Kept i (SameOrFaulted s) where
  read a u := .congr (cacheRead_iaddr a u) (cacheRead_result a u) (cacheRead_run a u) (cacheRead_fault a u)
  write _ a v u := .congr (cacheWrite_iaddr a v u) (cacheWrite_result a v u) (cacheWrite_run a v u) (cacheWrite_fault a v u)
  setPc _ _ _ := .congr rfl rfl rfl rfl
  setSp _ _ _ _ := .congr rfl rfl rfl rfl
  setFp _ _ _ := .congr rfl rfl rfl rfl
  emit _ _ _ _ := .congr rfl rfl rfl rfl
  raise _ _ _ _ h := ⟨h.1, h.2.1, .inr ⟨rfl, _, rfl, h.1⟩⟩
  halt e := absurd e hi

/-- HALT ends in a fault of its read, or halted with a result. -/
theorem exec_halt_ends {s t : State} (e : exec .halt s = .next t) :
    SameOrFaulted s t ∨ (t.iaddr = s.iaddr ∧ t.run = .halted ∧ t.result.isSome = true ∧ t.fault = s.fault) := by
  by_cases nonempty : s.sp.toNat ≤ 65535
  · rw [haltReadsResult.1 s nonempty] at e
    cases e
    exact .inr ⟨cacheRead_iaddr _ s, rfl, rfl, cacheRead_fault _ s⟩
  · rw [haltReadsResult.2 s (by omega)] at e
    cases e
    exact .inl ⟨rfl, rfl, .inr ⟨rfl, _, rfl, rfl⟩⟩

/-- How an instruction ends: its records as they were, a fault entry, or, for HALT, halted with a result. -/
theorem exec_ends {i : Instr} {s t : State} (e : exec i s = .next t) :
    SameOrFaulted s t ∨
      (i = .halt ∧ t.iaddr = s.iaddr ∧ t.run = .halted ∧ t.result.isSome = true ∧ t.fault = s.fault) := by
  by_cases hi : i = .halt
  · subst hi
    exact (exec_halt_ends e).imp_right fun h => ⟨rfl, h⟩
  · exact .inl (exec_keeps (kept_sameOrFaulted hi s) ⟨rfl, rfl, .inl ⟨rfl, rfl⟩⟩ e)

/-- Settles O35: the elements of the state one by one, each kept by the operations that may occur. -/
theorem registerFrame : Obligations.RegisterFrame := by
  intro i s t e
  refine ⟨exec_keeps (kept_iaddr i s.iaddr) rfl e, fun hi => exec_keeps (kept_fp hi s.fp) rfl e,
    fun hi => exec_keeps (kept_sp hi s.sp) rfl e, fun hi => exec_keeps (kept_result hi s.result) rfl e,
    fun hi => exec_keeps (kept_out hi s.out) rfl e, exec_keeps (kept_out_grows i s.out) (List.prefix_refl _) e, ?_⟩
  rcases exec_ends e with ⟨-, result, same | faulted⟩ | ⟨hi, -, run, -, fault⟩
  · exact .inl same
  · exact .inr (.inl ⟨faulted.1, result, faulted.2⟩)
  · exact .inr (.inr ⟨hi, run, fault⟩)

/-- Settles O10: the fetch or the dispatch faults, or the instruction ends in one of its three ways. -/
theorem runningStepEndsInThreeWays : Obligations.RunningStepEndsInThreeWays := by
  intro s running noResult noFault
  rw [step_running running]
  rcases runStep_cases s with ⟨-, e⟩ | ⟨-, -, e⟩ | ⟨i, -, -, e⟩
  · exact ⟨_, e, rfl, .inr (.inr ⟨rfl, noResult, _, rfl, rfl⟩)⟩
  · refine ⟨_, e, rfl, .inr (.inr ⟨rfl, ?_, _, rfl, rfl⟩)⟩
    rw [raise_result, setPc_result, setIaddr_result, cacheRead_result, noResult]
  · obtain ⟨t, ht⟩ := exec_next i (((cacheRead s.pcWord s).2.setIaddr s.pc).setPc (s.pc + 1#17))
    refine ⟨t, e.trans ht, exec_keeps (kept_iaddr i s.pc) rfl ht, ?_⟩
    rcases exec_ends ht with ⟨-, result, ⟨run, fault⟩ | ⟨run, fault⟩⟩ | ⟨-, -, run, result, fault⟩
    all_goals simp only [setPc_run, setPc_result, setPc_fault, setPc_iaddr, setIaddr_run, setIaddr_result, setIaddr_fault,
      setIaddr_iaddr, cacheRead_run, cacheRead_result, cacheRead_fault, running, noResult, noFault] at run result fault
    · exact .inl ⟨run, result, fault⟩
    · exact .inr (.inr ⟨run, result, fault⟩)
    · exact .inr (.inl ⟨run, result, fault⟩)

/-! ### The ranges of the registers and of a recorded fault (R27, R120) -/

theorem RaisedInExec.inRange {c : Cause} {n : Int} {s : State} (h : RaisedInExec c n s) (pc : s.pc.toNat ≤ 65537)
    (sp : s.sp.toNat ≤ 65536) (a : Ctrl) : (⟨c, n, a⟩ : FaultRecord).inRange = true := by
  rcases h with ⟨rfl, rfl⟩ | ⟨rfl, ge, outside, le⟩
  · rfl
  · simp only [FaultRecord.inRange, Bool.or_eq_true, Bool.and_eq_true, decide_eq_true_eq, ctrlInt] at *
    omega

/-- What an instruction keeps of the ranges, apart from the `PC` of a JEQ. -/
structure Bounded (s t : State) : Prop where
  pc : t.pc.toNat ≤ 65536
  sp : t.sp.toNat ≤ 65536
  fault : FaultInRange s → FaultInRange t

theorem faultInRange_congr {s t : State} (same : t.fault = s.fault) (h : FaultInRange s) : FaultInRange t :=
  fun f hf => h f (same ▸ hf)

theorem Bounded.congr {s t u : State} (pc : u.pc = t.pc) (sp : u.sp = t.sp) (fault : u.fault = t.fault) (h : Bounded s t) :
    Bounded s u := by
  obtain ⟨hpc, hsp, hfault⟩ := h
  constructor
  · rw [pc]; exact hpc
  · rw [sp]; exact hsp
  · exact fun h => faultInRange_congr fault (hfault h)

theorem faultInRange_raise {c : Cause} {n : Int} {s : State} (h : (⟨c, n, s.iaddr⟩ : FaultRecord).inRange = true) :
    FaultInRange (raise c n s) := by
  intro f hf
  cases hf
  exact h

/-- `PC` is assigned a Word, or moves past an operand that has been read and so lay at an address. -/
theorem PcAssigned.le {i : Instr} (hi : i ≠ .jeq) {v : Ctrl} {s : State} (h : PcAssigned i v s) : v.toNat ≤ 65536 := by
  rcases h with ⟨w, rfl⟩ | ⟨inMemory, rfl⟩ | ⟨e, -⟩
  · rw [toNat_wordToCtrl]; omega
  · rw [toNat_ctrl_add_one (by omega)]; omega
  · exact absurd e hi

theorem kept_bounded {i : Instr} (hi : i ≠ .jeq) (s : State) : Kept i (Bounded s) where
  read a u := .congr (cacheRead_pc a u) (cacheRead_sp a u) (cacheRead_fault a u)
  write _ a v u := .congr (cacheWrite_pc a v u) (cacheWrite_sp a v u) (cacheWrite_fault a v u)
  setPc _ _ assigned h := ⟨assigned.le hi, h.sp, h.fault⟩
  setSp _ _ _ le h := ⟨h.pc, le, h.fault⟩
  setFp _ _ _ := .congr rfl rfl rfl
  emit _ _ _ _ := .congr rfl rfl rfl
  raise c n u raised h := ⟨h.pc, h.sp, fun _ => faultInRange_raise (raised.inRange (by have := h.pc; omega) h.sp _)⟩
  halt _ _ _ := .congr rfl rfl rfl

/-- The four ends of a JEQ: `PC` is left, or assigned a Word, or steps over the operand, wherever that lies. -/
theorem exec_jeq_bounded {s t : State} (pc : s.pc.toNat ≤ 65536) (sp : s.sp.toNat ≤ 65536) (e : exec .jeq s = .next t) :
    t.sp.toNat ≤ 65536 ∧ (FaultInRange s → FaultInRange t) ∧ (t.pc.toNat ≤ 65536 ∨ t.pc = s.pc + 1#17) := by
  have addressRange (n : Int) (low : 65535 < n) (high : n ≤ 65536) (u : State) :
      FaultInRange (raise .addressRange n u) :=
    faultInRange_raise (RaisedInExec.inRange (s := s) (.inr ⟨rfl, by omega, .inr low, .inl (by omega)⟩) (by omega) sp _)
  by_cases empty : 65535 < s.sp.toNat
  · rw [exec_jeq_empty empty] at e
    cases e
    exact ⟨sp, fun _ => addressRange _ (by unfold ctrlInt; omega) (by unfold ctrlInt; omega) _, .inl pc⟩
  have nonempty : s.sp.toNat ≤ 65535 := by omega
  have popped : (s.sp + 1#17).toNat ≤ 65536 := by rw [toNat_ctrl_add_one (by omega)]; omega
  by_cases zero : view s s.spWord = 0#16
  · by_cases inMemory : s.pc.toNat ≤ 65535
    · rw [exec_jeq_taken nonempty zero inMemory] at e
      cases e
      exact ⟨popped, faultInRange_congr (transact_fault _ s), .inl ((toNat_wordToCtrl _).trans_le (by omega))⟩
    · rw [exec_jeq_taken_fault nonempty zero (by omega)] at e
      cases e
      refine ⟨popped, fun _ => addressRange _ (by unfold ctrlInt; omega) (by unfold ctrlInt; omega) _, .inl ?_⟩
      rw [raise_pc, transact_pc]
      exact pc
  · rw [exec_jeq_not_taken nonempty zero] at e
    cases e
    exact ⟨popped, faultInRange_congr (transact_fault _ s), .inr rfl⟩

/-- Every instruction keeps the ranges, but for the `PC` of a JEQ that is not taken. -/
theorem exec_bounded {i : Instr} {s t : State} (pc : s.pc.toNat ≤ 65536) (sp : s.sp.toNat ≤ 65536)
    (e : exec i s = .next t) : t.sp.toNat ≤ 65536 ∧ (FaultInRange s → FaultInRange t) ∧
      (t.pc.toNat ≤ 65536 ∨ (i = .jeq ∧ t.pc = s.pc + 1#17)) := by
  by_cases hi : i = .jeq
  · subst hi
    obtain ⟨hsp, hfault, hpc⟩ := exec_jeq_bounded pc sp e
    exact ⟨hsp, hfault, hpc.imp_right fun h => ⟨rfl, h⟩⟩
  · obtain ⟨hpc, hsp, hfault⟩ := exec_keeps (kept_bounded hi s) ⟨pc, sp, id⟩ e
    exact ⟨hsp, hfault, .inl hpc⟩

/-- Settles O56: the fetch faults and leaves `PC`, or the instruction begins with `PC` at most 65536. -/
theorem stepKeepsRegistersInRange : Obligations.StepKeepsRegistersInRange := by
  intro s t inRange e
  obtain ⟨pc, sp, -, -⟩ := inRange
  rw [step_running (run_of_step e)] at e
  rcases runStep_cases s with ⟨-, c⟩ | ⟨inMemory, -, c⟩ | ⟨i, inMemory, decoded, c⟩ <;> rw [c] at e
  · cases e
    exact ⟨⟨pc, sp, pc, fun h => by cases h⟩, fun h => by cases h⟩
  · cases e
    refine ⟨⟨?_, ?_, pc, fun h => by cases h⟩, fun h => by cases h⟩
    · rw [raise_pc, setPc_pc, toNat_ctrl_add_one (by omega)]; omega
    · rw [raise_sp, setPc_sp, setIaddr_sp, cacheRead_sp]; exact sp
  · have next : (s.pc + 1#17).toNat = s.pc.toNat + 1 := toNat_ctrl_add_one (by omega)
    have iaddr : t.iaddr = s.pc := exec_keeps (kept_iaddr i s.pc) rfl e
    obtain ⟨hsp, -, hpc⟩ := exec_bounded (by rw [setPc_pc, next]; omega)
      (by rw [setPc_sp, setIaddr_sp, cacheRead_sp]; exact sp) e
    have hpc' : t.pc.toNat ≤ 65536 ∨
        (t.pc.toNat = 65537 ∧ s.pc.toNat = 65535 ∧ decode (view s s.pcWord) = some .jeq) := by
      rcases hpc with le | ⟨rfl, past⟩
      · exact .inl le
      · have pastNat : t.pc.toNat = s.pc.toNat + 2 := by rw [past, setPc_pc, toNat_ctrl_add_one (by omega), next]
        by_cases last : s.pc.toNat = 65535
        · exact .inr ⟨by omega, last, decoded⟩
        · exact .inl (by omega)
    refine ⟨⟨?_, hsp, by rw [iaddr]; exact pc, fun _ => ?_⟩, fun _ => hpc'⟩
    · omega
    · rw [iaddr]; omega

/-! ### The records between steps (R20 to R24, R120) -/

/-- `OUT` only grows, the latch, the fetch and the dispatch leaving it alone. -/
theorem step_out_grows {s t : State} (e : step s = .next t) : s.out <+: t.out :=
  step_keeps (P := fun u => s.out <+: u.out) (fun i => kept_out_grows i s.out) (fun _ _ h => h) (fun _ _ _ h => h)
    (List.prefix_refl _) e

theorem kept_outInRange (i : Instr) : Kept i OutInRange where
  read a s h := by rw [OutInRange, cacheRead_out]; exact h
  write _ a v s h := by rw [OutInRange, cacheWrite_out]; exact h
  setPc _ _ _ h := h
  setSp _ _ _ _ h := h
  setFp _ _ _ h := h
  emit _ e s inRange h := by
    rw [OutInRange, emit_out, List.forall_mem_append, List.forall_mem_singleton]
    exact ⟨h, inRange⟩
  raise _ _ _ _ h := h
  halt _ _ _ h := h

theorem step_outInRange {s t : State} (h : OutInRange s) (e : step s = .next t) : OutInRange t :=
  step_keeps kept_outInRange (fun _ _ h => h) (fun _ _ _ h => h) h e

theorem step_faultInRange {s t : State} (inRange : RegistersInRange s) (h : FaultInRange s) (e : step s = .next t) :
    FaultInRange t := by
  obtain ⟨pc, sp, -, -⟩ := inRange
  rw [step_running (run_of_step e)] at e
  rcases runStep_cases s with ⟨beyond, c⟩ | ⟨-, undecoded, c⟩ | ⟨i, inMemory, -, c⟩ <;> rw [c] at e
  · cases e
    refine faultInRange_raise (RaisedInExec.inRange (s := s) (.inr ⟨rfl, ?_, .inr ?_, .inl ?_⟩) pc sp _) <;>
      (unfold ctrlInt; omega)
  · cases e
    have ge := le_of_decode_eq_none undecoded
    have le := unsigned_le (view s s.pcWord)
    refine faultInRange_raise ?_
    simp only [FaultRecord.inRange, Bool.and_eq_true, decide_eq_true_eq]
    exact ⟨by unfold unsigned; omega, le⟩
  · refine (exec_bounded ?_ ?_ e).2.1 ?_
    · rw [setPc_pc, toNat_ctrl_add_one (by omega)]; omega
    · rw [setPc_sp, setIaddr_sp, cacheRead_sp]; exact sp
    · exact faultInRange_congr (cacheRead_fault _ s) h

/-- A running engine has neither record, and its step ends with exactly the one that belongs to its end. -/
theorem step_endConsistent {s t : State} (h : EndConsistent s) (e : step s = .next t) : EndConsistent t := by
  have running := run_of_step e
  obtain ⟨result, fault⟩ := h
  rw [running] at result fault
  obtain ⟨t', e', -, ends⟩ := runningStepEndsInThreeWays s running (by simpa using result) (by simpa using fault)
  rw [e] at e'
  cases e'
  rcases ends with ⟨run, result, fault⟩ | ⟨run, result, fault⟩ | ⟨run, result, f, fault, -⟩ <;>
    simp [EndConsistent, run, result, fault]

/-- Settles O59: the four invariants above. -/
theorem stepKeepsRecordsConsistent : Obligations.StepKeepsRecordsConsistent :=
  fun _ _ inRange e => ⟨fun h => step_endConsistent h e, fun h => step_outInRange h e,
    fun h => step_faultInRange inRange h e, step_out_grows e⟩

end Sys2Proof.Machine


/-! The cache is invisible to a program (20_memory.md R54): two states that agree on what a program sees run in step. -/

namespace Sys2Proof.Machine

/-! ### Agreement of two states, and of two runs of micro-steps -/

/-- Two states under the line invariant that are the same to a program. -/
structure Agree (s t : State) : Prop where
  left : CacheInv s
  right : CacheInv t
  same : SameToProgram s t

/-- Two runs of micro-steps that complete with the same value, or both raise, in states that agree. -/
def Micro.Agrees {α : Type} : Micro α → Micro α → Prop
  | .done v s, .done w t => v = w ∧ Agree s t
  | .raised s, .raised t => Agree s t
  | _, _ => False

theorem Micro.Agrees.andThen {α β : Type} {m n : Micro α} {k l : α → State → Micro β} (h : m.Agrees n)
    (hk : ∀ v s t, Agree s t → (k v s).Agrees (l v t)) : (m.andThen k).Agrees (n.andThen l) := by
  match m, n, h with
  | .done v s, .done _ t, ⟨rfl, h⟩ => exact hk v s t h
  | .raised s, .raised t, h => exact h

theorem Micro.Agrees.done {α : Type} (v : α) {s t : State} (h : Agree s t) : (Micro.done v s).Agrees (.done v t) :=
  ⟨rfl, h⟩

theorem Micro.Agrees.state {α : Type} {m n : Micro α} (h : m.Agrees n) : Agree m.state n.state := by
  match m, n, h with
  | .done _ _, .done _ _, h => exact h.2
  | .raised _, .raised _, h => exact h

/-! ### The operations keep the agreement -/

namespace Agree

variable {s t : State} (h : Agree s t)
include h

theorem pc : s.pc = t.pc := h.same.1

theorem sp : s.sp = t.sp := h.same.2.1

theorem fp : s.fp = t.fp := h.same.2.2.1

theorem view (a : Word) : view s a = Machine.view t a := h.same.2.2.2.2.2.2.2.2 a

/-- The two sides' accesses of one address leave the same views, because each leaves a flat memory's. -/
theorem run (x : Access) : Agree (x.run s) (x.run t) := by
  refine ⟨cacheInv_run h.left x, cacheInv_run h.right x, ?_⟩
  obtain ⟨pc, sp, fp, run, result, fault, iaddr, out, sameView⟩ := h.same
  have views : Machine.view (x.run s) = Machine.view (x.run t) := by
    rw [h.left.view_run, h.right.view_run, funext sameView]
  have fields : (x.run s).pc = (x.run t).pc ∧ (x.run s).sp = (x.run t).sp ∧ (x.run s).fp = (x.run t).fp ∧
      (x.run s).run = (x.run t).run ∧ (x.run s).result = (x.run t).result ∧ (x.run s).fault = (x.run t).fault ∧
      (x.run s).iaddr = (x.run t).iaddr ∧ (x.run s).out = (x.run t).out := by
    cases x <;> simp [Access.run, pc, sp, fp, run, result, fault, iaddr, out]
  simp [SameToProgram, fields, views]

/-- A change of the registers and records alone keeps the agreement when it makes them equal on the two sides. -/
theorem congr {s' t' : State} (memory : (s'.cache = s.cache ∧ s'.mem = s.mem) ∧ t'.cache = t.cache ∧ t'.mem = t.mem)
    (registers : s'.pc = t'.pc ∧ s'.sp = t'.sp ∧ s'.fp = t'.fp ∧ s'.run = t'.run ∧ s'.result = t'.result ∧
      s'.fault = t'.fault ∧ s'.iaddr = t'.iaddr ∧ s'.out = t'.out) : Agree s' t' := by
  obtain ⟨⟨cacheS, memS⟩, cacheT, memT⟩ := memory
  have sameView (a : Word) : Machine.view s' a = Machine.view t' a := by
    rw [view_congr (line_congr cacheS _) (by rw [memRead, memS, memRead]), h.view,
      view_congr (line_congr cacheT _) (by rw [memRead, memT, memRead])]
  obtain ⟨pc, sp, fp, run, result, fault, iaddr, out⟩ := registers
  exact ⟨fun i => lineInv_congr cacheS memS (h.left i), fun i => lineInv_congr cacheT memT (h.right i),
    pc, sp, fp, run, result, fault, iaddr, out, sameView⟩

theorem setPc (v : Ctrl) : Agree (s.setPc v) (t.setPc v) := by
  obtain ⟨-, sp, fp, run, result, fault, iaddr, out, -⟩ := h.same
  exact h.congr ⟨⟨rfl, rfl⟩, rfl, rfl⟩ ⟨rfl, sp, fp, run, result, fault, iaddr, out⟩

theorem setSp (v : Ctrl) : Agree (s.setSp v) (t.setSp v) := by
  obtain ⟨pc, -, fp, run, result, fault, iaddr, out, -⟩ := h.same
  exact h.congr ⟨⟨rfl, rfl⟩, rfl, rfl⟩ ⟨pc, rfl, fp, run, result, fault, iaddr, out⟩

theorem setFp (v : Word) : Agree (s.setFp v) (t.setFp v) := by
  obtain ⟨pc, sp, -, run, result, fault, iaddr, out, -⟩ := h.same
  exact h.congr ⟨⟨rfl, rfl⟩, rfl, rfl⟩ ⟨pc, sp, rfl, run, result, fault, iaddr, out⟩

theorem setIaddr (v : Ctrl) : Agree (s.setIaddr v) (t.setIaddr v) := by
  obtain ⟨pc, sp, fp, run, result, fault, -, out, -⟩ := h.same
  exact h.congr ⟨⟨rfl, rfl⟩, rfl, rfl⟩ ⟨pc, sp, fp, run, result, fault, rfl, out⟩

theorem emit (e : Event) : Agree (emit e s) (Machine.emit e t) := by
  obtain ⟨pc, sp, fp, run, result, fault, iaddr, out, -⟩ := h.same
  exact h.congr ⟨⟨rfl, rfl⟩, rfl, rfl⟩ ⟨pc, sp, fp, run, result, fault, iaddr, congrArg (· ++ [e]) out⟩

theorem haltWith (r : Word) : Agree (s.haltWith r) (t.haltWith r) := by
  obtain ⟨pc, sp, fp, -, -, fault, iaddr, out, -⟩ := h.same
  exact h.congr ⟨⟨rfl, rfl⟩, rfl, rfl⟩ ⟨pc, sp, fp, rfl, rfl, fault, iaddr, out⟩

theorem raise (c : Cause) (n : Int) : Agree (raise c n s) (Machine.raise c n t) := by
  obtain ⟨pc, sp, fp, -, result, -, iaddr, out, -⟩ := h.same
  have fault : some (FaultRecord.mk c n s.iaddr) = some ⟨c, n, t.iaddr⟩ := by rw [iaddr]
  exact h.congr ⟨⟨rfl, rfl⟩, rfl, rfl⟩ ⟨pc, sp, fp, rfl, result, fault, iaddr, out⟩

theorem checkAddr (n : Int) : (checkAddr n s).Agrees (Machine.checkAddr n t) := by
  by_cases outside : n < 0 ∨ 65535 < n
  · rw [checkAddr_fault outside, checkAddr_fault outside]
    exact h.raise _ _
  · rw [checkAddr_ok (by omega) (by omega), checkAddr_ok (by omega) (by omega)]
    exact .done () h

theorem load (n : Int) : (load n s).Agrees (Machine.load n t) :=
  (h.checkAddr n).andThen fun _ u v h => ⟨by rw [cacheRead_fst, cacheRead_fst, h.view], h.run (.read (wrap16 n))⟩

theorem store (n : Int) (v : Word) : (store n v s).Agrees (Machine.store n v t) :=
  (h.checkAddr n).andThen fun _ _ _ h => .done () (h.run (.write (wrap16 n) v))

theorem load_pc : (Machine.load (ctrlInt s.pc) s).Agrees (Machine.load (ctrlInt t.pc) t) := by
  rw [h.pc]
  exact h.load _

theorem load_sp : (Machine.load (ctrlInt s.sp) s).Agrees (Machine.load (ctrlInt t.sp) t) := by
  rw [h.sp]
  exact h.load _

theorem advancePc : Agree (s.setPc (s.pc + 1#17)) (t.setPc (t.pc + 1#17)) := by
  rw [h.pc]
  exact h.setPc _

theorem advanceSp : Agree (s.setSp (s.sp + 1#17)) (t.setSp (t.sp + 1#17)) := by
  rw [h.sp]
  exact h.setSp _

theorem fetchOperand : (fetchOperand s).Agrees (Machine.fetchOperand t) :=
  h.load_pc.andThen fun w _ _ h => .done w h.advancePc

theorem fetchOpcode : (fetchOpcode s).Agrees (Machine.fetchOpcode t) := by
  rw [Machine.fetchOpcode, Machine.fetchOpcode, h.pc]
  exact ((h.setIaddr t.pc).load _).andThen fun w _ _ h => .done w h.advancePc

theorem pop : (pop s).Agrees (Machine.pop t) :=
  h.load_sp.andThen fun v _ _ h => .done v h.advanceSp

theorem push (v : Word) : (push v s).Agrees (Machine.push v t) := by
  rw [Machine.push, Machine.push, h.sp]
  exact (h.checkAddr _).andThen fun _ _ _ h => .done () ((h.setSp _).run (.write _ v))

theorem binOp (f : Int → Int → Int) : (binOp f s).Agrees (Machine.binOp f t) :=
  h.pop.andThen fun _ _ _ h => h.pop.andThen fun _ _ _ h => h.push _

end Agree

theorem Agree.printString {s t : State} (h : Agree s t) (left : Nat) : (printString left s).Agrees (printString left t) := by
  induction left generalizing s t with
  | zero =>
    rw [printString_zero, printString_zero]
    exact h.raise _ _
  | succ left ih =>
    rw [Machine.printString, Machine.printString]
    -- The address enters on both sides alike.
    generalize 65536 - ((left : Int) + 1) = p
    refine (h.load p).andThen fun w s t h => ?_
    split
    · exact .done () h
    · have h := h.emit (.printChar (lowByte w).toNat)
      dsimp only
      split
      · exact .done () h
      · exact ih (h.emit _)

/-! ### Instructions and steps -/

/-- Two outcomes are next states that agree. -/
def BothNext (a b : Host.Outcome State Fault Refusal) : Prop :=
  ∃ s t, a = .next s ∧ b = .next t ∧ Agree s t

theorem Micro.Agrees.bothNext {α : Type} {m n : Micro α} (h : m.Agrees n) : BothNext m.outcome n.outcome :=
  ⟨_, _, Micro.outcome_eq m, Micro.outcome_eq n, h.state⟩

/-- Every instruction keeps the agreement: each is a chain of operations that do, and what it computes from is the same. -/
theorem Agree.exec (i : Instr) {s t : State} (h : Agree s t) : BothNext (exec i s) (exec i t) := by
  cases i with
  | halt => exact (h.load_sp.andThen fun r _ _ h => .done () (h.haltWith r)).bothNext
  | nop => exact ⟨s, t, rfl, rfl, h⟩
  | add => exact (h.binOp aluAdd).bothNext
  | sub => exact (h.binOp aluSub).bothNext
  | mult => exact (h.binOp aluMult).bothNext
  | div =>
    refine (h.pop.andThen fun a _ _ h => h.pop.andThen fun b s t h => ?_).bothNext
    split
    · exact h.raise _ _
    · exact h.push _
  | call =>
    refine (h.fetchOperand.andThen fun w s t h => ?_).bothNext
    rw [h.pc]
    refine (h.checkAddr _).andThen fun _ s t h => ?_
    rw [h.pc]
    refine (h.push _).andThen fun _ s t h => ?_
    rw [h.fp]
    refine (h.push _).andThen fun _ s t h => ?_
    rw [h.sp]
    exact .done () ((h.setPc _).setFp _)
  | ret =>
    refine (h.fetchOperand.andThen fun off s t h => h.load_sp.andThen fun v s t h => ?_).bothNext
    rw [h.fp]
    refine (h.load _).andThen fun rpc s t h => ?_
    rw [h.fp]
    refine (h.load _).andThen fun rfp s t h => ?_
    rw [h.fp]
    refine (h.store _ v).andThen fun _ s t h => ?_
    rw [h.fp]
    exact .done () (((h.setPc _).setSp _).setFp rfp)
  | jmp => exact (h.load_pc.andThen fun w _ _ h => .done () (h.setPc (wordToCtrl w))).bothNext
  | jeq =>
    refine (h.pop.andThen fun v s t h => ?_).bothNext
    split
    · exact h.load_pc.andThen fun w _ _ h => .done () (h.setPc _)
    · exact .done () h.advancePc
  | printi =>
    exact (h.load_sp.andThen fun v _ _ h => .done () (h.emit (.printInt (signed v))).advanceSp).bothNext
  | prints => exact (h.fetchOperand.andThen fun w _ _ h => h.printString (65536 - w.toNat)).bothNext
  | pushc => exact (h.fetchOperand.andThen fun k _ _ h => h.push k).bothNext
  | pusha =>
    exact (h.fetchOperand.andThen fun a _ _ h => (h.load (unsigned a)).andThen fun v _ _ h => h.push v).bothNext
  | pushr =>
    refine (h.fetchOperand.andThen fun off s t h => ?_).bothNext
    rw [h.fp]
    exact (h.load _).andThen fun v _ _ h => h.push v
  | popa =>
    exact (h.fetchOperand.andThen fun a _ _ h => h.pop.andThen fun v _ _ h => h.store (unsigned a) v).bothNext
  | popr =>
    refine (h.fetchOperand.andThen fun off s t h => h.pop.andThen fun v s t h => ?_).bothNext
    rw [h.fp]
    exact h.store _ v

theorem Agree.dispatchWord (w : Word) {s t : State} (h : Agree s t) : BothNext (dispatchWord w s) (dispatchWord w t) := by
  rw [Machine.dispatchWord, Machine.dispatchWord]
  cases decode w with
  | some i => exact h.exec i
  | none => exact ⟨_, _, rfl, rfl, h.raise _ _⟩

theorem Agree.runStep {s t : State} (h : Agree s t) : BothNext (runStep s) (runStep t) := by
  have fetched := h.fetchOpcode
  rw [Machine.runStep, Machine.runStep]
  match Machine.fetchOpcode s, Machine.fetchOpcode t, fetched with
  | .done w _, .done _ _, ⟨rfl, h⟩ => exact h.dispatchWord w
  | .raised s, .raised t, h => exact ⟨s, t, rfl, rfl, h⟩

/-- Settles O60: `RUN` agrees, so both engines step or both are stopped, and the agreement is kept. -/
theorem cacheIsInvisibleToProgram : Obligations.CacheIsInvisibleToProgram := by
  intro s t left right same
  have sameRun : s.run = t.run := same.2.2.2.1
  refine ⟨fun s' e => ?_, fun f e => ?_⟩
  · have running := run_of_step e
    obtain ⟨s₁, t₁, hs, ht, h⟩ := (Agree.mk left right same).runStep
    rw [step_running running, hs] at e
    cases e
    exact ⟨t₁, (step_running (sameRun ▸ running)).trans ht, h.same⟩
  · cases hr : s.run with
    | running =>
      obtain ⟨s₁, -, hs, -, -⟩ := (Agree.mk left right same).runStep
      rw [step_running hr, hs] at e
      cases e
    | halted => rw [step_halted (sameRun ▸ hr), ← e, step_halted hr]
    | faulted => rw [step_faulted (sameRun ▸ hr), ← e, step_faulted hr]

end Sys2Proof.Machine


/-! Every Word of memory but the stored ones is unchanged (20_memory.md R54; 40_cycle_halt_nop.md R80; 60_exceptions.md
R125). -/

namespace Sys2Proof.Machine

/-! ### What micro-steps end in -/

/-- Completed micro-steps end with a value and a state of which `D` holds, raised ones in a state of which `R` holds. -/
def Micro.Ends {α : Type} (m : Micro α) (D : α → State → Prop) (R : State → Prop) : Prop :=
  match m with
  | .done v s => D v s
  | .raised s => R s

theorem Micro.Ends.andThen {α β : Type} {m : Micro α} {k : α → State → Micro β} {D : α → State → Prop}
    {E : β → State → Prop} {R : State → Prop} (h : m.Ends D R) (hk : ∀ v s, D v s → (k v s).Ends E R) :
    (m.andThen k).Ends E R := by
  cases m with
  | done v s => exact hk v s h
  | raised s => exact h

theorem Micro.Ends.imp {α : Type} {m : Micro α} {D E : α → State → Prop} {R S : State → Prop} (h : m.Ends D R)
    (done : ∀ v s, D v s → E v s) (raised : ∀ s, R s → S s) : m.Ends E S := by
  cases m with
  | done v s => exact done v s h
  | raised s => exact raised s h

/-! ### The Word at one address through the operations -/

/-- The engine runs, the two registers that addresses are computed from have these values, and, where `F` holds, the Word at
`b` is still `x`. -/
structure Intact (F : Prop) (b x sp fp : Word) (s : State) : Prop where
  holds : F → Holds b x s
  running : s.run = .running
  sp : s.spWord = sp
  fp : s.fp = fp

/-- A fault that, where `F` holds, leaves the Word at `b` alone. -/
def FaultedHolding (F : Prop) (b x : Word) (s : State) : Prop := s.run = .faulted ∧ (F → Holds b x s)

/-- The registers and records are no part of what keeps a Word readable. -/
theorem Holds.congr {b x : Word} {s t : State} (cache : t.cache = s.cache) (mem : t.mem = s.mem) (h : Holds b x s) :
    Holds b x t := by
  have line := line_congr cache (lineIndex b)
  have memory : memRead b t = memRead b s := by rw [memRead, mem, memRead]
  exact ⟨dirtyPlaced_congr cache h.placed, viewBacked_congr line memory h.backed, (view_congr line memory).trans h.word⟩

section Operations

variable {F : Prop} {b x sp fp : Word} {s : State} (h : Intact F b x sp fp s)
include h

theorem Intact.imp {G : Prop} (weaker : G → F) : Intact G b x sp fp s :=
  ⟨fun g => h.holds (weaker g), h.running, h.sp, h.fp⟩

theorem Intact.raise (c : Cause) (n : Int) : FaultedHolding F b x (raise c n s) :=
  ⟨rfl, fun f => Holds.congr (s := s) rfl rfl (h.holds f)⟩

theorem Intact.cacheRead (a : Word) : Intact F b x sp fp (cacheRead a s).2 where
  holds f := (h.holds f).run (x := .read a) fun _ e => by cases e
  running := (cacheRead_run a s).trans h.running
  sp := (cacheRead_spWord a s).trans h.sp
  fp := (cacheRead_fp a s).trans h.fp

theorem Intact.cacheWrite (a v : Word) : Intact (F ∧ b ≠ a) b x sp fp (cacheWrite a v s) where
  holds f := (h.holds f.1).run (x := .write a v) fun _ e => by cases e; exact f.2 rfl
  running := (cacheWrite_run a v s).trans h.running
  sp := (cacheWrite_spWord a v s).trans h.sp
  fp := (cacheWrite_fp a v s).trans h.fp

theorem Intact.setPc (v : Ctrl) : Intact F b x sp fp (s.setPc v) :=
  ⟨fun f => Holds.congr (s := s) rfl rfl (h.holds f), h.running, h.sp, h.fp⟩

theorem Intact.setSp (v : Ctrl) : Intact F b x (v.setWidth 16) fp (s.setSp v) :=
  ⟨fun f => Holds.congr (s := s) rfl rfl (h.holds f), h.running, rfl, h.fp⟩

theorem Intact.setFp (v : Word) : Intact F b x sp v (s.setFp v) :=
  ⟨fun f => Holds.congr (s := s) rfl rfl (h.holds f), h.running, h.sp, rfl⟩

theorem Intact.checkAddr (n : Int) : (checkAddr n s).Ends (fun _ t => Intact F b x sp fp t) (FaultedHolding F b x) := by
  by_cases outside : n < 0 ∨ 65535 < n
  · rw [checkAddr_fault outside]
    exact h.raise _ _
  · rw [checkAddr_ok (by omega) (by omega)]
    exact h

theorem Intact.load (n : Int) : (load n s).Ends (fun _ t => Intact F b x sp fp t) (FaultedHolding F b x) :=
  (h.checkAddr n).andThen fun _ _ h => h.cacheRead _

/-- A store at `n` stores there, or faults before it stores. -/
theorem Intact.store (n : Int) (v : Word) :
    (store n v s).Ends (fun _ t => Intact (F ∧ b ≠ wrap16 n) b x sp fp t) (FaultedHolding F b x) :=
  (h.checkAddr n).andThen fun _ _ h => h.cacheWrite _ v

/-- The operand that is fetched is the Word viewed at `PC`. -/
theorem Intact.fetchOperand :
    (fetchOperand s).Ends (fun v t => v = view s s.pcWord ∧ Intact F b x sp fp t) (FaultedHolding F b x) := by
  by_cases inMemory : s.pc.toNat ≤ 65535
  · rw [fetchOperand_ok inMemory]
    exact ⟨rfl, (h.cacheRead _).setPc _⟩
  · rw [fetchOperand_fault (by omega)]
    exact h.raise _ _

theorem Intact.pop : (pop s).Ends (fun _ t => Intact F b x (sp + 1#16) fp t) (FaultedHolding F b x) := by
  by_cases nonempty : s.sp.toNat ≤ 65535
  · have up : (s.sp + 1#17).setWidth 16 = sp + 1#16 := by rw [setWidth_succ, setWidth_sp, h.sp]
    rw [pop_ok nonempty, ← up]
    exact (h.cacheRead _).setSp _
  · rw [pop_fault (by omega)]
    exact h.raise _ _

/-- A push stores at the address below `SP`, or faults before it stores. -/
theorem Intact.push (v : Word) :
    (push v s).Ends (fun _ t => Intact (F ∧ b ≠ sp - 1#16) b x (sp - 1#16) fp t) (FaultedHolding F b x) := by
  by_cases full : s.sp.toNat = 0
  · rw [push_empty_fault full]
    exact h.raise _ _
  by_cases inStack : s.sp.toNat ≤ 65536
  · have down : (s.sp - 1#17).setWidth 16 = sp - 1#16 := by rw [setWidth_pred, setWidth_sp, h.sp]
    rw [push_ok (by omega) inStack, h.sp]
    exact down ▸ (h.cacheWrite (sp - 1#16) v).setSp (s.sp - 1#17)
  · rw [push_beyond_fault (by omega)]
    exact h.raise _ _

end Operations

/-! ### The instructions -/

/-- An execution that stores at the addresses of `A` when it completes, and when it faults at none where `F` holds. -/
def StoresAt (F : Prop) (b x : Word) (A : List Word) (m : Micro Unit) : Prop :=
  m.Ends (fun _ t => t.run = .running ∧ (F → b ∉ A → Holds b x t)) (FaultedHolding F b x)

theorem StoresAt.andThen {α : Type} {F : Prop} {b x : Word} {A : List Word} {m : Micro α} {k : α → State → Micro Unit}
    {D : α → State → Prop} (h : m.Ends D (FaultedHolding F b x)) (hk : ∀ v s, D v s → StoresAt F b x A (k v s)) :
    StoresAt F b x A (m.andThen k) := Micro.Ends.andThen h hk

theorem Intact.storesAt_done {F : Prop} {b x sp fp a : Word} {s : State} (h : Intact (F ∧ b ≠ a) b x sp fp s)
    {A : List Word} (ha : a ∈ A) : StoresAt F b x A (.done () s) :=
  ⟨h.running, fun f notIn => h.holds ⟨f, fun e => notIn (e ▸ ha)⟩⟩

section Stores

variable {F : Prop} {b x sp fp : Word} {s : State} (h : Intact F b x sp fp s)
include h

/-- A push that ends an instruction. -/
theorem Intact.storesAt_push (v : Word) : StoresAt F b x [sp - 1#16] (Machine.push v s) :=
  (h.push v).imp (fun _ _ h => h.storesAt_done List.mem_cons_self) fun _ faulted => faulted

/-- A store that ends an instruction. -/
theorem Intact.storesAt_store (n : Int) (v : Word) : StoresAt F b x [wrap16 n] (Machine.store n v s) :=
  (h.store n v).imp (fun _ _ h => h.storesAt_done List.mem_cons_self) fun _ faulted => faulted

/-- The push after two pops is over the second Word. -/
theorem Intact.storesAt_push_after_pop_pop {sp₀ : Word} (popped : sp = sp₀ + 1#16 + 1#16) (v : Word) :
    StoresAt F b x [sp₀ + 1#16] (Machine.push v s) := by
  have cell : sp - 1#16 = sp₀ + 1#16 := by rw [popped, BitVec.add_sub_cancel]
  exact cell ▸ h.storesAt_push v

theorem Intact.storesAt_binOp (f : Int → Int → Int) : StoresAt F b x [sp + 1#16] (Machine.binOp f s) :=
  .andThen h.pop fun _ _ h => .andThen h.pop fun _ _ h => h.storesAt_push_after_pop_pop rfl _

/-- The two pushes of CALL, a fault of the second coming after the first has stored. -/
theorem Intact.storesAt_pushes (notFirst : F → b ≠ sp - 1#16) (v : Word) (k : State → State)
    (sameMemory : ∀ t, (k t).cache = t.cache ∧ (k t).mem = t.mem ∧ (k t).run = t.run) :
    StoresAt F b x [sp - 1#16, sp - 2#16] ((Machine.push v s).andThen fun _ s =>
      (Machine.push s.fp s).andThen fun _ s => .done () (k s)) := by
  refine .andThen (h.push v) fun _ u h => .andThen ((h.imp fun f => ⟨f, notFirst f⟩).push u.fp) fun _ t h => ?_
  have second : sp - 1#16 - 1#16 = sp - 2#16 := by bv_omega
  obtain ⟨cache, mem, run⟩ := sameMemory t
  refine ⟨run.trans h.running, fun f notIn => (h.holds ⟨f, fun e => notIn ?_⟩).congr cache mem⟩
  rw [e, second]
  exact List.mem_cons_of_mem _ List.mem_cons_self

end Stores

/-- Every instruction that stores is micro-steps that store at its addresses. -/
theorem exec_storesAt {i : Instr} (stores : i ∉ [Instr.halt, .nop, .jmp, .jeq, .printi, .prints]) {b x : Word} {s : State}
    (h : Intact (i = .call → b ≠ s.spWord - 1#16) b x s.spWord s.fp s) :
    ∃ m, exec i s = m.outcome ∧ StoresAt (i = .call → b ≠ s.spWord - 1#16) b x (storedAddrs i s) m := by
  cases i with
  | halt | nop | jmp | jeq | printi | prints => simp at stores
  | add | sub | mult => exact ⟨_, rfl, h.storesAt_binOp _⟩
  | div =>
    refine ⟨_, rfl, .andThen h.pop fun a _ h => .andThen h.pop fun b s h => ?_⟩
    split
    · exact h.raise _ _
    · exact h.storesAt_push_after_pop_pop rfl _
  | call =>
    refine ⟨_, rfl, .andThen h.fetchOperand fun w _ h => .andThen (h.2.checkAddr _) fun _ _ h => ?_⟩
    exact h.storesAt_pushes (fun f => f rfl) _ (fun t => (t.setPc (wordToCtrl w)).setFp (wrap16 (ctrlInt t.sp)))
      fun _ => ⟨rfl, rfl, rfl⟩
  | ret =>
    refine ⟨_, rfl, .andThen h.fetchOperand fun off _ h => .andThen (h.2.load _) fun v _ h₁ =>
      .andThen (h₁.load _) fun rpc _ h₂ => .andThen (h₂.load _) fun rfp u h₃ => .andThen (h₃.store _ v) fun _ t h₄ => ?_⟩
    refine (((h₄.setPc _).setSp _).setFp _).storesAt_done ?_
    rw [h.1, h₃.fp]
    exact List.mem_cons_self
  | pushc => exact ⟨_, rfl, .andThen h.fetchOperand fun k _ h => h.2.storesAt_push k⟩
  | pusha | pushr =>
    exact ⟨_, rfl, .andThen h.fetchOperand fun _ _ h => .andThen (h.2.load _) fun v _ h => h.storesAt_push v⟩
  | popa =>
    refine ⟨_, rfl, .andThen h.fetchOperand fun w _ h => .andThen h.2.pop fun v u h' => ?_⟩
    have stored := h'.storesAt_store (unsigned w) v
    rw [wrap16_unsigned, h.1] at stored
    rw [h.1]
    exact stored
  | popr =>
    refine ⟨_, rfl, .andThen h.fetchOperand fun off _ h => .andThen h.2.pop fun v u h' => ?_⟩
    rw [h.1, h'.fp]
    exact h'.storesAt_store _ v

/-- What no operation of an instruction that stores nothing changes. -/
theorem kept_holds {i : Instr} (hi : i ∈ [Instr.halt, .nop, .jmp, .jeq, .printi, .prints]) (b x : Word) :
    Kept i (Holds b x) where
  read a _ h := h.run (x := .read a) fun _ e => by cases e
  write stores := absurd hi stores
  setPc _ _ _ := .congr rfl rfl
  setSp _ _ _ _ := .congr rfl rfl
  setFp _ _ _ := .congr rfl rfl
  emit _ _ _ _ := .congr rfl rfl
  raise _ _ _ _ := .congr rfl rfl
  halt _ _ _ := .congr rfl rfl

/-- Settles O36: an instruction that stores does so at its addresses, and the others keep every Word. -/
theorem memoryFrame : Obligations.MemoryFrame := by
  intro i s t inv running e b backed
  have holds : Holds b (view s b) s := ⟨inv.dirtyPlaced, inv.viewBacked backed, rfl⟩
  by_cases stores : i ∈ [Instr.halt, .nop, .jmp, .jeq, .printi, .prints]
  · have kept := exec_keeps (kept_holds stores b (view s b)) holds e
    exact ⟨fun _ _ => kept.word, fun _ _ => kept.word⟩
  · obtain ⟨m, hm, ends⟩ := exec_storesAt stores ⟨fun _ => holds, running, rfl, rfl⟩
    rw [hm] at e
    cases m with
    | done v t =>
      cases e
      obtain ⟨completed, kept⟩ := ends
      refine ⟨fun _ notIn => (kept (fun call first => notIn ?_) notIn).word, fun faulted => ?_⟩
      · rw [call, first]
        exact List.mem_cons_self
      · rw [completed] at faulted
        cases faulted
    | raised t =>
      cases e
      obtain ⟨faulted, kept⟩ := ends
      exact ⟨fun notFaulted => absurd faulted notFaulted, fun _ notFirst => (kept notFirst).word⟩

end Sys2Proof.Machine


/-! PRINTS (43_output.md R102): the loop in exact states, the string that ends and the one that runs off the memory. -/

namespace Sys2Proof.Machine

/-! ### A string's Words, transactions and events -/

theorem readsFrom_succ (p : Word) (n : Nat) : readsFrom p (n + 1) = readsFrom p n ++ [.read (p + BitVec.ofNat 16 n)] := by
  rw [readsFrom, readsFrom, List.range_succ, List.map_append, List.map_singleton]

/-- PRINTS's transactions up to the first `n` Words of its string: the operand, then the Words. -/
def printsReads (s : State) (n : Nat) : List Access := .read s.pcWord :: readsFrom (view s s.pcWord) n

/-- The Word number `n` of the string, as PRINTS reads it. -/
def printsWord (s : State) (n : Nat) : Word :=
  view (transact (printsReads s n) s) (view s s.pcWord + BitVec.ofNat 16 n)

/-- The events of the first `n` Words, where none of them has a zero byte. -/
def printsEvents (s : State) (n : Nat) : List Event :=
  (List.range n).flatMap fun j =>
    [.printChar (lowByte (printsWord s j)).toNat, .printChar (highByte (printsWord s j)).toNat]

theorem printsReads_succ (s : State) (n : Nat) :
    printsReads s (n + 1) = printsReads s n ++ [.read (view s s.pcWord + BitVec.ofNat 16 n)] := by
  rw [printsReads, readsFrom_succ]
  rfl

theorem printsEvents_succ (s : State) (n : Nat) :
    printsEvents s (n + 1) = printsEvents s n ++
      [.printChar (lowByte (printsWord s n)).toNat, .printChar (highByte (printsWord s n)).toNat] := by
  rw [printsEvents, List.range_succ, List.flatMap_append, List.flatMap_singleton]
  rfl

/-! ### Several events -/

/-- The events of `es` appended to `OUT`. -/
def State.emitAll (es : List Event) (s : State) : State := { s with out := s.out ++ es }

theorem emitAll_nil (s : State) : s.emitAll [] = s := by rw [State.emitAll, List.append_nil]

theorem emit_emitAll (e : Event) (es : List Event) (s : State) : emit e (s.emitAll es) = s.emitAll (es ++ [e]) := by
  rw [emit, State.emitAll, State.emitAll, List.append_assoc]

theorem cacheRead_emitAll (es : List Event) (s : State) (a : Word) :
    (cacheRead a (s.emitAll es)).2 = (cacheRead a s).2.emitAll es := by
  induction es using List.reverseRecOn with
  | nil => rw [emitAll_nil, emitAll_nil]
  | append_singleton es e ih => rw [← emit_emitAll, cacheRead_emit, ih, emit_emitAll]

/-! ### The loop -/

theorem isTerminator_iff_eq_zero (b : Byte) : isTerminator b = true ↔ b = 0#8 := by
  rw [isTerminator_iff, ← BitVec.toNat_inj]
  rfl

/-- The state in which PRINTS reads the Word number `n`, the Words before it having no zero byte. -/
def printsState (s : State) (n : Nat) : State :=
  ((transact (printsReads s n) s).setPc (s.pc + 1#17)).emitAll (printsEvents s n)

theorem view_printsState (s : State) (n : Nat) :
    view (printsState s n) (view s s.pcWord + BitVec.ofNat 16 n) = printsWord s n := rfl

/-- The state after the read of the Word number `n`: one more transaction than before it, and no event yet. -/
def printsReadState (s : State) (n : Nat) : State :=
  ((transact (printsReads s (n + 1)) s).setPc (s.pc + 1#17)).emitAll (printsEvents s n)

theorem cacheRead_printsState (s : State) (n : Nat) :
    (cacheRead (view s s.pcWord + BitVec.ofNat 16 n) (printsState s n)).2 = printsReadState s n := by
  rw [printsState, cacheRead_emitAll, cacheRead_setPc, cacheRead_transact, printsReadState, printsReads_succ]

theorem printsState_succ (s : State) (n : Nat) :
    printsState s (n + 1) = emit (.printChar (highByte (printsWord s n)).toNat)
      (emit (.printChar (lowByte (printsWord s n)).toNat) (printsReadState s n)) := by
  rw [printsState, printsEvents_succ, printsReadState, emit_emitAll, emit_emitAll, List.append_assoc]
  rfl

/-- One turn of the loop at the Word number `n`, which lies in memory. -/
theorem printString_printsState {s : State} {n : Nat} (inMemory : (view s s.pcWord).toNat + n ≤ 65535) :
    printString (65536 - (view s s.pcWord).toNat - n) (printsState s n) =
      if isTerminator (lowByte (printsWord s n)) then .done () (printsReadState s n)
      else if isTerminator (highByte (printsWord s n)) then
        .done () (emit (.printChar (lowByte (printsWord s n)).toNat) (printsReadState s n))
      else printString (65536 - (view s s.pcWord).toNat - (n + 1)) (printsState s (n + 1)) := by
  have left : 65536 - (view s s.pcWord).toNat - n = (65536 - (view s s.pcWord).toNat - (n + 1)) + 1 := by omega
  have cell : BitVec.ofNat 16 (65535 - (65536 - (view s s.pcWord).toNat - (n + 1))) =
      view s s.pcWord + BitVec.ofNat 16 n := by
    apply BitVec.eq_of_toNat_eq
    rw [BitVec.toNat_add, BitVec.toNat_ofNat, BitVec.toNat_ofNat]
    omega
  rw [left, printString_succ (by omega), cell, printsState_succ]
  dsimp only
  rw [view_printsState, cacheRead_printsState]

/-- The loop passes over Words without a zero byte. -/
theorem printString_of_no_zero {s : State} {n : Nat} (inMemory : (view s s.pcWord).toNat + n ≤ 65536)
    (noZero : ∀ j < n, lowByte (printsWord s j) ≠ 0#8 ∧ highByte (printsWord s j) ≠ 0#8) :
    printString (65536 - (view s s.pcWord).toNat) (printsState s 0) =
      printString (65536 - (view s s.pcWord).toNat - n) (printsState s n) := by
  induction n with
  | zero => rfl
  | succ n ih =>
    obtain ⟨low, high⟩ := noZero n (Nat.lt_succ_self n)
    rw [ih (by omega) fun j hj => noZero j (by omega), printString_printsState (by omega),
      if_neg (fun h => low ((isTerminator_iff_eq_zero _).1 h)), if_neg (fun h => high ((isTerminator_iff_eq_zero _).1 h))]

theorem exec_prints (s : State) :
    exec .prints s = ((fetchOperand s).andThen fun t s => printString (65536 - t.toNat) s).outcome := rfl

/-- With its operand in memory, PRINTS comes to its loop. -/
theorem exec_prints_of_operand {s : State} (inMemory : s.pc.toNat ≤ 65535) :
    exec .prints s = (printString (65536 - (view s s.pcWord).toNat) (printsState s 0)).outcome := by
  have start : printsState s 0 = (transact [.read s.pcWord] s).setPc (s.pc + 1#17) := emitAll_nil _
  rw [exec_prints, fetchOperand_andThen_ok inMemory, start]

/-- A state of PRINTS as one record update. -/
theorem setPc_emitAll_transact (xs : List Access) (x : Ctrl) (es : List Event) (s : State) :
    ((transact xs s).setPc x).emitAll es = { transact xs s with pc := x, out := s.out ++ es } := by
  rw [State.emitAll, setPc_out, transact_out]
  rfl

section PrintsOperand

variable {s : State} (operand : s.pc.toNat ≤ 65535) {n : Nat}
  (noZero : ∀ j < n, lowByte (printsWord s j) ≠ 0#8 ∧ highByte (printsWord s j) ≠ 0#8)
include operand noZero

/-- The first Word with a zero byte is number `n`: the loop ends there, after its low byte if that is not zero. -/
theorem exec_prints_ok (inMemory : (view s s.pcWord).toNat + n ≤ 65535)
    (zero : lowByte (printsWord s n) = 0#8 ∨ highByte (printsWord s n) = 0#8) :
    exec .prints s = .next { transact (printsReads s (n + 1)) s with
      pc := s.pc + 1#17
      out := s.out ++ printsEvents s n ++
        (if lowByte (printsWord s n) = 0#8 then [] else [.printChar (lowByte (printsWord s n)).toNat]) } := by
  rw [exec_prints_of_operand operand, printString_of_no_zero (by omega) noZero, printString_printsState inMemory,
    printsReadState]
  by_cases low : lowByte (printsWord s n) = 0#8
  · rw [if_pos ((isTerminator_iff_eq_zero _).2 low), setPc_emitAll_transact, if_pos low, List.append_nil]
    rfl
  · have high : highByte (printsWord s n) = 0#8 := zero.resolve_left low
    rw [if_neg (fun h => low ((isTerminator_iff_eq_zero _).1 h)), if_pos ((isTerminator_iff_eq_zero _).2 high),
      emit_emitAll, setPc_emitAll_transact, if_neg low, List.append_assoc]
    rfl

/-- No Word up to the end of memory has a zero byte: the loop passes over them all and faults. -/
theorem exec_prints_fault (toEnd : (view s s.pcWord).toNat + n = 65536) :
    exec .prints s = .next (raise .addressRange 65536 { transact (printsReads s n) s with
      pc := s.pc + 1#17, out := s.out ++ printsEvents s n }) := by
  have noneLeft : 65536 - (view s s.pcWord).toNat - n = 0 := by omega
  rw [exec_prints_of_operand operand, printString_of_no_zero (by omega) noZero, noneLeft, printString_zero, printsState,
    setPc_emitAll_transact]
  rfl

end PrintsOperand

/-- Settles O27: the statement's transactions, Words and events are `printsReads`, `printsWord` and `printsEvents`. -/
theorem printsEmitsString : Obligations.PrintsEmitsString :=
  fun _ _ operand inMemory noZero zero => exec_prints_ok operand noZero inMemory zero

/-- Settles O28: the operand's fetch faults, or the loop does at the end of memory. -/
theorem printsFaults : Obligations.PrintsFaults :=
  ⟨fun _ pastEnd => fetchOperand_andThen_fault pastEnd _,
    fun s operand noZero => exec_prints_fault operand noZero (by have := (view s s.pcWord).isLt; omega)⟩

end Sys2Proof.Machine


/-! Two instructions together: a CALL and the RETURN that undoes it (42_control_transfer.md R94 to R96), and a PUSHA and the
POPA of the same address (44_stack_memory.md R115). -/

namespace Sys2Proof.Machine

/-! ### Where an instruction that completes has started -/

/-- A run of micro-steps that has raised a fault has not completed. -/
theorem not_running_of_raised {c : Cause} {n : Int} {u t : State}
    (e : (.next (raise c n u) : Host.Outcome State Fault Refusal) = .next t) : t.run ≠ .running := by
  cases e
  exact nofun

/-- A push raises where there is no cell below `SP`. -/
theorem push_raises {s : State} (noCell : ¬ (1 ≤ s.sp.toNat ∧ s.sp.toNat ≤ 65536)) (v : Word) :
    ∃ n, push v s = .raised (raise .addressRange n s) := by
  by_cases full : s.sp.toNat = 0
  · exact ⟨_, push_empty_fault full v⟩
  · exact ⟨_, push_beyond_fault (by omega) v⟩

section Completes

variable {s t : State} (running : t.run = .running)
include running

theorem pc_le_of_fetchOperand_completes {β : Type} {k : Word → State → Micro β}
    (e : ((fetchOperand s).andThen k).outcome = .next t) : s.pc.toNat ≤ 65535 := by
  by_contra pastEnd
  rw [fetchOperand_andThen_fault (by omega)] at e
  exact not_running_of_raised e running

theorem exec_call_completes (e : exec .call s = .next t) :
    s.pc.toNat ≤ 65534 ∧ 2 ≤ s.sp.toNat ∧ s.sp.toNat ≤ 65536 := by
  have operand := pc_le_of_fetchOperand_completes running e
  have returnAddress : s.pc.toNat ≤ 65534 := by
    by_contra last
    rw [exec_call_no_return_address (by omega)] at e
    exact not_running_of_raised e running
  have cell : 1 ≤ s.sp.toNat ∧ s.sp.toNat ≤ 65536 := by
    by_contra noCell
    rw [← transact_sp [.read s.pcWord] s, ← setPc_sp _ (s.pc + 1#17)] at noCell
    obtain ⟨n, raises⟩ := push_raises noCell (s.pcWord + 1#16)
    rw [exec_call_pushes returnAddress, raises] at e
    exact not_running_of_raised e running
  refine ⟨returnAddress, ?_, cell.2⟩
  by_contra one
  rw [exec_call_room_for_one returnAddress (by omega)] at e
  exact not_running_of_raised e running

theorem exec_ret_completes (e : exec .ret s = .next t) :
    s.pc.toNat ≤ 65535 ∧ s.sp.toNat ≤ 65535 ∧ s.fp.toNat ≤ 65534 ∧
      0 ≤ frameAddr s.fp (view s s.pcWord) ∧ frameAddr s.fp (view s s.pcWord) ≤ 65535 := by
  have operand := pc_le_of_fetchOperand_completes running e
  have nonempty : s.sp.toNat ≤ 65535 := by
    by_contra empty
    rw [exec_ret_empty operand (by omega)] at e
    exact not_running_of_raised e running
  have frame : s.fp.toNat ≤ 65534 := by
    by_contra last
    have fp : s.fp = 65535#16 := BitVec.eq_of_toNat_eq (by have := s.fp.isLt; simp; omega)
    rw [exec_ret_no_frame operand nonempty fp] at e
    exact not_running_of_raised e running
  have inside : ¬ (frameAddr s.fp (view s s.pcWord) < 0 ∨ 65535 < frameAddr s.fp (view s s.pcWord)) := by
    intro outside
    rw [exec_ret_store_fault operand nonempty frame outside] at e
    exact not_running_of_raised e running
  exact ⟨operand, nonempty, frame, by omega, by omega⟩

theorem exec_pusha_completes (e : exec .pusha s = .next t) :
    s.pc.toNat ≤ 65535 ∧ 1 ≤ s.sp.toNat ∧ s.sp.toNat ≤ 65536 := by
  have operand := pc_le_of_fetchOperand_completes running e
  refine ⟨operand, ?_⟩
  by_contra noCell
  rw [← transact_sp [.read s.pcWord, .read (view s s.pcWord)] s, ← setPc_sp _ (s.pc + 1#17)] at noCell
  obtain ⟨n, raises⟩ := push_raises noCell (view (transact [.read s.pcWord] s) (view s s.pcWord))
  rw [exec_pusha_of_operand operand, raises] at e
  exact not_running_of_raised e running

theorem exec_popa_completes (e : exec .popa s = .next t) : s.pc.toNat ≤ 65535 ∧ s.sp.toNat ≤ 65535 := by
  have operand := pc_le_of_fetchOperand_completes running e
  refine ⟨operand, ?_⟩
  by_contra empty
  rw [exec_popa_empty operand (by omega)] at e
  exact not_running_of_raised e running

end Completes

/-! ### The registers an instruction assigns, and the view -/

theorem view_withPcSp (u : State) (x y : Ctrl) (b : Word) : view { u with pc := x, sp := y } b = view u b := rfl

theorem view_withPcSpFp (u : State) (x y : Ctrl) (z b : Word) :
    view { u with pc := x, sp := y, fp := z } b = view u b := rfl

theorem line_withPcSp (u : State) (x y : Ctrl) (i : LineIndex) : State.line { u with pc := x, sp := y } i = u.line i := rfl

theorem transact_nil (s : State) : transact [] s = s := rfl

theorem transact_cons (x : Access) (xs : List Access) (s : State) : transact (x :: xs) s = transact xs (x.run s) := rfl

/-- Under the line invariant the view after transactions is a flat memory's (R54). -/
theorem CacheInv.view_transact {s : State} (inv : CacheInv s) (xs : List Access) (b : Word) :
    view (transact xs s) b = flatAfter xs (view s) b := (cacheRefinesFlatMemory xs s inv).2 b

theorem ctrlInt_toCtrl {i : Int} (nonneg : 0 ≤ i) (le : i ≤ 131071) : ctrlInt (toCtrl i) = i := by
  rw [ctrlInt, toNat_toCtrl nonneg le]
  omega

/-- A return address that is a Word comes back to `PC` unchanged. -/
theorem setWidth_pcWord_succ {s : State} (h : s.pc.toNat ≤ 65534) : (s.pcWord + 1#16).setWidth 17 = s.pc + 1#17 := by
  apply BitVec.eq_of_toNat_eq
  have word := toNat_pcWord (s := s) (by omega)
  rw [BitVec.toNat_setWidth, BitVec.toNat_add, BitVec.toNat_add, word, BitVec.toNat_ofNat, BitVec.toNat_ofNat]
  omega

/-! ### CALL and RETURN (R94 to R96) -/

/-- A resident address keeps its Word through a write to another line, whatever that line held. -/
theorem view_cacheWrite_of_line_ne {s : State} {a b v : Word} (h : resident s b) (otherLine : lineIndex b ≠ lineIndex a) :
    view (cacheWrite a v s) b = view s b := by
  have line : (cacheWrite a v s).line (lineIndex b) = s.line (lineIndex b) := by rw [cacheWrite_line, if_neg otherLine]
  rw [view_resident h, view_resident (by rw [line]; exact h), line]

theorem lineIndex_add_one_ne (a : Word) : lineIndex (a + 1#16) ≠ lineIndex a := by
  intro e
  have val := lineIndex_add_one_val a
  rw [e] at val
  have := (lineIndex a).isLt
  omega

/-- The frame a CALL builds: the caller's `FP` at `FP` and the return address above it (R94). -/
theorem exec_call_frame {s t : State} (running : t.run = .running) (e : exec .call s = .next t) :
    view t t.fp = s.fp ∧ view t (t.fp + 1#16) = s.pcWord + 1#16 := by
  obtain ⟨returnAddress, room, inStack⟩ := exec_call_completes running e
  have writes : transact [.read s.pcWord, .write (s.spWord - 1#16) (s.pcWord + 1#16), .write (s.spWord - 2#16) s.fp] s =
      cacheWrite (s.spWord - 2#16) s.fp
        (cacheWrite (s.spWord - 1#16) (s.pcWord + 1#16) (transact [.read s.pcWord] s)) := by
    simp only [transact_cons, transact_nil, Access.run]
  rw [exec_call_ok returnAddress room inStack, writes] at e
  have ht := Host.Outcome.next.inj e
  have fp : t.fp = s.spWord - 2#16 := by rw [← ht]
  have above : s.spWord - 2#16 + 1#16 = s.spWord - 1#16 := by bv_omega
  have otherLine : lineIndex (s.spWord - 1#16) ≠ lineIndex (s.spWord - 2#16) := above ▸ lineIndex_add_one_ne _
  rw [fp, above, ← ht]
  refine ⟨?_, ?_⟩ <;> rw [view_withPcSpFp]
  · exact view_cacheWrite_same _ _ _
  · rw [view_cacheWrite_of_line_ne (cacheWrite_resident _ _ _) otherLine, view_cacheWrite_same]

/-- What a RETURN that completes under the line invariant comes back with (R93). -/
theorem exec_ret_restores {u w : State} (inv : CacheInv u) (running : w.run = .running) (e : exec .ret u = .next w) :
    w.pc = (view u (u.fp + 1#16)).setWidth 17 ∧ w.fp = view u u.fp ∧
      ctrlInt w.sp = frameAddr u.fp (view u u.pcWord) ∧ view w w.spWord = view u u.spWord := by
  obtain ⟨operand, nonempty, frame, ge, le⟩ := exec_ret_completes running e
  have atSp := ctrlInt_toCtrl ge (by omega)
  rw [exec_ret_ok operand nonempty frame ge le, inv.view_transact, inv.view_transact, inv.view_transact] at e
  have hw := Host.Outcome.next.inj e
  have sp : ctrlInt w.sp = frameAddr u.fp (view u u.pcWord) := by rw [← hw]; exact atSp
  have spWord : w.spWord = wrap16 (frameAddr u.fp (view u u.pcWord)) := by rw [← wrap16_sp, sp]
  refine ⟨by rw [← hw]; rfl, by rw [← hw]; rfl, sp, ?_⟩
  rw [spWord, ← hw, view_withPcSpFp, inv.view_transact]
  simp only [flatAfter, List.foldl_cons, List.foldl_nil, Access.flat, if_true]

/-- Settles O25: the frame the CALL has built is what the RETURN comes back with. -/
theorem returnUndoesCall : Obligations.ReturnUndoesCall := by
  intro s t _ call completed
  obtain ⟨callerFp, returnAddress⟩ := exec_call_frame completed call
  refine ⟨callerFp, returnAddress, fun u w inv _ _ frameFp frameReturn ret returned => ?_⟩
  obtain ⟨pc, fp, sp, value⟩ := exec_ret_restores inv returned ret
  refine ⟨?_, fp.trans frameFp, sp, value⟩
  rw [pc, frameReturn, setWidth_pcWord_succ (exec_call_completes completed call).1]

/-! ### PUSHA and POPA (R115) -/

/-- What a PUSHA that completes under the line invariant leaves: the cell's Word below the old top of stack (R111). -/
theorem exec_pusha_leaves {s t : State} (inv : CacheInv s) (running : t.run = .running) (e : exec .pusha s = .next t) :
    t.sp = s.sp - 1#17 ∧
      ∀ b, view t b = if b = s.spWord - 1#16 then view s (view s s.pcWord) else view s b := by
  obtain ⟨operand, room, inStack⟩ := exec_pusha_completes running e
  rw [(pushaPushesCell.2.1 s operand).1 room inStack] at e
  cases e
  refine ⟨rfl, fun b => ?_⟩
  rw [view_withPcSp, inv.view_transact, inv.view_transact]
  rfl

/-- What a POPA that completes under the line invariant leaves: the top Word at the operand's address (R113). -/
theorem exec_popa_leaves {u w : State} (inv : CacheInv u) (running : w.run = .running) (e : exec .popa u = .next w) :
    w.sp = u.sp + 1#17 ∧ (w.line (lineIndex (view u u.pcWord))).dirty = true ∧
      ∀ b, view w b = if b = view u u.pcWord then view u u.spWord else view u b := by
  obtain ⟨operand, nonempty⟩ := exec_popa_completes running e
  rw [exec_popa_ok operand nonempty] at e
  cases e
  refine ⟨rfl, ?_, fun b => ?_⟩
  · rw [line_withPcSp]
    simp only [transact_cons, transact_nil, Access.run, cacheWrite_line, if_true]
  · rw [view_withPcSp, inv.view_transact, inv.view_transact]
    rfl

/-- Settles O34: the POPA stores at `x` the Word that the PUSHA read there, from the cell the PUSHA pushed. -/
theorem pushaThenPopaKeepsCell : Obligations.PushaThenPopaKeepsCell := by
  intro s t u w invS invU _ _ pusha pushed sp sameView sameOperand popa popped
  obtain ⟨spT, viewT⟩ := exec_pusha_leaves invS pushed pusha
  obtain ⟨spW, dirty, viewW⟩ := exec_popa_leaves invU popped popa
  rw [sameOperand] at dirty viewW
  have spWord : u.spWord = s.spWord - 1#16 := by rw [State.spWord, sp, spT, setWidth_pred, setWidth_sp]
  have top : view u u.spWord = view s (view s s.pcWord) := by rw [sameView, spWord, viewT, if_pos rfl]
  have cell : view w (view s s.pcWord) = view s (view s s.pcWord) := by rw [viewW, if_pos rfl, top]
  refine ⟨?_, cell, fun b notPushed => ?_, dirty⟩
  · rw [spW, sp, spT, BitVec.sub_add_cancel]
  · by_cases same : b = view s s.pcWord
    · rw [same, cell]
    · rw [viewW, if_neg same, sameView, viewT, if_neg notPushed]

end Sys2Proof.Machine
